-- ==== Sys2Proof/Word.lean ====
section
/-! DEFINITION. The widths the block works in: a 32-bit machine word (R8, R42), a byte for a consumer that serialises
words (D11), and text as a list of characters for the host's parser and the ROM generator (R36, R74). -/

namespace Sys2Proof

/-- The output word of the block, `word[31:0]`, bit 0 least significant (R9, R30). -/
abbrev Word := BitVec 32

/-- One byte, for a consumer that serialises words (R31 leaves the order open). -/
abbrev Byte := BitVec 8

/-- A line of source text, or the generated ROM text: its characters in order. -/
abbrev Text := List Char

end Sys2Proof
end

