-- ==== Sys2Proof/Syntax.lean ====
section
/-! DEFINITION. The typed `Instruction` the block encodes (R15): operand types (R17, R19, R20, R21), the nine layouts
(R42), the thirty kinds in the table's order (R44), the instruction itself, and the port-level form of one input (R22). -/

namespace Sys2Proof

/-- A register operand: X0 to X30, or XZR (R17; 32 values, conflict C1). -/
inductive Reg where
  | x (n : Fin 31)
  | xzr
deriving DecidableEq, Repr

/-- A condition operand, one of 16 values (R19). The names are the ARMv8 ones R49 assigns (D9, log entry 4). -/
inductive Cond where
  | eq | ne | hs | lo | mi | pl | vs | vc | hi | ls | ge | lt | gt | le | al | nv
deriving DecidableEq, Repr

/-- A shift amount of MOVZ or MOVK: 0, 16, 32 or 48 (R20). -/
inductive ShiftAmount where
  | lsl0 | lsl16 | lsl32 | lsl48
deriving DecidableEq, Repr

/-- The nine rows of the source's layout table (R42; conflict C3: nine layouts realise six formats). -/
inductive Layout where
  | r | i | d | im | shift | cb | bCond | b | br
deriving DecidableEq, Repr

/-- The thirty instruction kinds, in the order of R44. -/
inductive Kind where
  | add | adds | sub | subs | and | ands | orr | eor
  | addi | addis | subi | subis | andi | andis | orri | eori
  | stur | ldur | sturb | ldurb
  | movz | movk
  | lsr | lsl
  | cbz | cbnz | bCond
  | b | bl
  | br
deriving DecidableEq, Repr

/-- The layout of each kind (R44). -/
def Kind.layout : Kind → Layout
  | .add | .adds | .sub | .subs | .and | .ands | .orr | .eor => .r
  | .addi | .addis | .subi | .subis | .andi | .andis | .orri | .eori => .i
  | .stur | .ldur | .sturb | .ldurb => .d
  | .movz | .movk => .im
  | .lsr | .lsl => .shift
  | .cbz | .cbnz => .cb
  | .bCond => .bCond
  | .b | .bl => .b
  | .br => .br

/-- The width of a layout's opcode field (R45). -/
def Layout.opcWidth : Layout → Nat
  | .r | .d | .shift | .br => 11
  | .i => 10
  | .im => 9
  | .cb | .bCond => 8
  | .b => 6

/-- The lowest bit of a layout's opcode field (R45, R73). -/
def Layout.opcLsb : Layout → Nat
  | .r | .d | .shift | .br => 21
  | .i => 22
  | .im => 23
  | .cb | .bCond => 24
  | .b => 26

/-- The typed instruction of R15: a kind with its operands. An immediate is an integer of any size and sign, "stored
without width validation at construction" (R21). One constructor per row of `opcode_table.json`. -/
inductive Instr where
  | add (rd rn rm : Reg)
  | adds (rd rn rm : Reg)
  | sub (rd rn rm : Reg)
  | subs (rd rn rm : Reg)
  | and (rd rn rm : Reg)
  | ands (rd rn rm : Reg)
  | orr (rd rn rm : Reg)
  | eor (rd rn rm : Reg)
  | addi (rd rn : Reg) (imm : Int)
  | addis (rd rn : Reg) (imm : Int)
  | subi (rd rn : Reg) (imm : Int)
  | subis (rd rn : Reg) (imm : Int)
  | andi (rd rn : Reg) (imm : Int)
  | andis (rd rn : Reg) (imm : Int)
  | orri (rd rn : Reg) (imm : Int)
  | eori (rd rn : Reg) (imm : Int)
  | stur (rt rn : Reg) (off : Int)
  | ldur (rt rn : Reg) (off : Int)
  | sturb (rt rn : Reg) (off : Int)
  | ldurb (rt rn : Reg) (off : Int)
  | movz (rd : Reg) (imm : Int) (hw : ShiftAmount)
  | movk (rd : Reg) (imm : Int) (hw : ShiftAmount)
  | lsr (rd rn : Reg) (shamt : Int)
  | lsl (rd rn : Reg) (shamt : Int)
  | cbz (rt : Reg) (addr : Int)
  | cbnz (rt : Reg) (addr : Int)
  | bCond (cond : Cond) (addr : Int)
  | b (addr : Int)
  | bl (addr : Int)
  | br (rn : Reg)
deriving DecidableEq, Repr

/-- The kind of an instruction: its tag in the source's tagged union (R15, R44). -/
def Instr.kind : Instr → Kind
  | .add _ _ _ => .add
  | .adds _ _ _ => .adds
  | .sub _ _ _ => .sub
  | .subs _ _ _ => .subs
  | .and _ _ _ => .and
  | .ands _ _ _ => .ands
  | .orr _ _ _ => .orr
  | .eor _ _ _ => .eor
  | .addi _ _ _ => .addi
  | .addis _ _ _ => .addis
  | .subi _ _ _ => .subi
  | .subis _ _ _ => .subis
  | .andi _ _ _ => .andi
  | .andis _ _ _ => .andis
  | .orri _ _ _ => .orri
  | .eori _ _ _ => .eori
  | .stur _ _ _ => .stur
  | .ldur _ _ _ => .ldur
  | .sturb _ _ _ => .sturb
  | .ldurb _ _ _ => .ldurb
  | .movz _ _ _ => .movz
  | .movk _ _ _ => .movk
  | .lsr _ _ _ => .lsr
  | .lsl _ _ _ => .lsl
  | .cbz _ _ => .cbz
  | .cbnz _ _ => .cbnz
  | .bCond _ _ => .bCond
  | .b _ => .b
  | .bl _ => .bl
  | .br _ => .br

/-- The width W of the immediate a layout carries, `none` where it carries none (R15, R52 to R57). -/
def Layout.immWidth : Layout → Option Nat
  | .r | .br => none
  | .i => some 12
  | .d => some 9
  | .im => some 16
  | .shift => some 6
  | .cb | .bCond => some 19
  | .b => some 26

/-- The instruction with `f` applied to its immediate, all other operands as they are; an instruction without an
immediate is unchanged. -/
def Instr.mapImm (f : Int → Int) : Instr → Instr
  | .add rd rn rm => .add rd rn rm
  | .adds rd rn rm => .adds rd rn rm
  | .sub rd rn rm => .sub rd rn rm
  | .subs rd rn rm => .subs rd rn rm
  | .and rd rn rm => .and rd rn rm
  | .ands rd rn rm => .ands rd rn rm
  | .orr rd rn rm => .orr rd rn rm
  | .eor rd rn rm => .eor rd rn rm
  | .addi rd rn imm => .addi rd rn (f imm)
  | .addis rd rn imm => .addis rd rn (f imm)
  | .subi rd rn imm => .subi rd rn (f imm)
  | .subis rd rn imm => .subis rd rn (f imm)
  | .andi rd rn imm => .andi rd rn (f imm)
  | .andis rd rn imm => .andis rd rn (f imm)
  | .orri rd rn imm => .orri rd rn (f imm)
  | .eori rd rn imm => .eori rd rn (f imm)
  | .stur rt rn off => .stur rt rn (f off)
  | .ldur rt rn off => .ldur rt rn (f off)
  | .sturb rt rn off => .sturb rt rn (f off)
  | .ldurb rt rn off => .ldurb rt rn (f off)
  | .movz rd imm hw => .movz rd (f imm) hw
  | .movk rd imm hw => .movk rd (f imm) hw
  | .lsr rd rn shamt => .lsr rd rn (f shamt)
  | .lsl rd rn shamt => .lsl rd rn (f shamt)
  | .cbz rt addr => .cbz rt (f addr)
  | .cbnz rt addr => .cbnz rt (f addr)
  | .bCond cond addr => .bCond cond (f addr)
  | .b addr => .b (f addr)
  | .bl addr => .bl (f addr)
  | .br rn => .br rn

/-- The block's input ports (R22): the kind selector, the register codes, the condition, the shift code and the
immediate bus. -/
structure Ports where
  kind : BitVec 5
  rd : BitVec 5
  rn : BitVec 5
  rm : BitVec 5
  cond : BitVec 4
  hw : BitVec 2
  imm : BitVec 32
deriving DecidableEq, Repr, Inhabited

end Sys2Proof
end

