-- ==== Sys2Proof/Config.lean ====
section
/-! DEFINITION. The parameters of R8 that a model takes as arguments: `OPC` (D6), `BR_RN_LSB` (D7) and `COND_ORDINAL`
(D9) of the block; `IMM_CONTAINER(W)` (D22) and `PARSER_LEXICAL` (D20) of the host's parser; `WORD_BYTE_ORDER` (D11) of
a consumer that serialises words. Their default values are in Decode.lean and Machine/Parser.lean. Also the one free
value of the model: what the host drives on the ports a kind does not name. -/

namespace Sys2Proof

/-- `BR_RN_LSB`: the bit where BR's register field starts, 0 (the layout table) or 5 (R69, conflict C2, D7). -/
inductive BrRnLsb where
  | lsb0 | lsb5
deriving DecidableEq, Repr

/-- The block's parameters. `opc k` is `OPC(k)`, as wide as the opcode field of k's layout (R12, R45); `condOrdinal`
is `COND_ORDINAL` (R49, D9). -/
structure Params where
  opc : (k : Kind) → BitVec k.layout.opcWidth
  brRnLsb : BrRnLsb
  condOrdinal : Cond → BitVec 4

/-- The parameters of the host's parser. `immContainer W v` is the value the container of an `Immediate(W)` holds for
the literal v, `none` where it holds none (R76, D22: OPEN); the parser asks it only about literals that the source does
not say the container holds. `lexical t` says whether the parser takes the line t, which is no canonical spelling, for
the canonical spelling that it differs from in lexical detail only (R81, D20: OPEN); it chooses no reading, and gives
none to a line that no canonical spelling stands behind. -/
structure HostParams where
  immContainer : Nat → Int → Option Int
  lexical : Text → Bool

/-- `WORD_BYTE_ORDER`, for a consumer that serialises words into bytes (R31, D11: OPEN; the block forms no bytes). -/
inductive ByteOrder where
  | leastFirst | mostFirst
deriving DecidableEq, Repr

/-- FREE VALUE (log entry 6). What the host drives, on its n-th presentation, on the ports that the presented kind does
not name: the spec says only that the word does not depend on them (R24). -/
opaque Config.undrivenPorts : Nat → Ports

end Sys2Proof
end

