-- ==== Sys2Proof/Machine/Operands.lean ====
section
/-! DEFINITION. The operand codecs (R12, R47 to R57), each "a pure, total conversion" from an operand value to the bits
of its field, and the readings back that a decoder needs. -/

namespace Sys2Proof

/-- The ordinal of a register: Xn has n, XZR has 31 (R17). -/
def regOrdinal : Reg → Nat
  | .x n => n.val
  | .xzr => 31

/-- `reg5(r)`: the 5-bit code of a register (R48). -/
def reg5 (r : Reg) : BitVec 5 := BitVec.ofNat 5 (regOrdinal r)

/-- The register with a given code: every one of the 32 codes is some register's (R48). -/
def regOfCode (c : BitVec 5) : Reg :=
  if h : c.toNat < 31 then .x ⟨c.toNat, h⟩ else .xzr

/-- `cond4(c)`: the 4-bit ordinal of a condition (R49), from the parameter `COND_ORDINAL`. -/
def cond4 (P : Params) (c : Cond) : BitVec 4 := P.condOrdinal c

/-- `zext_5(cond4(c))`: the condition in the 5-bit field of B.cond, whose bit 4 is 0 (R49, R67). -/
def cond5 (P : Params) (c : Cond) : BitVec 5 := (cond4 P c).setWidth 5

/-- The sixteen conditions, in the order of R49. -/
def allConds : List Cond :=
  [.eq, .ne, .hs, .lo, .mi, .pl, .vs, .vc, .hi, .ls, .ge, .lt, .gt, .le, .al, .nv]

/-- The condition with a given 4-bit code, where the parameter `COND_ORDINAL` gives that code to one. -/
def condOfCode (P : Params) (c : BitVec 4) : Option Cond :=
  allConds.find? fun k => cond4 P k == c

/-- The ordinal of a shift amount, in the order the source lists the values (R20, D10, log entry 5). -/
def shiftOrdinal : ShiftAmount → Nat
  | .lsl0 => 0
  | .lsl16 => 1
  | .lsl32 => 2
  | .lsl48 => 3

/-- `shift2(s)`: the 2-bit code of a shift amount (R50). -/
def shift2 (s : ShiftAmount) : BitVec 2 := BitVec.ofNat 2 (shiftOrdinal s)

/-- The shift amount with a given code: each of the four codes is some shift amount's (R50). -/
def shiftOfCode (c : BitVec 2) : ShiftAmount :=
  if c = 0 then .lsl0 else if c = 1 then .lsl16 else if c = 2 then .lsl32 else .lsl48

/-- The number of places a shift amount stands for (R20). -/
def shiftPlaces : ShiftAmount → Nat
  | .lsl0 => 0
  | .lsl16 => 16
  | .lsl32 => 32
  | .lsl48 => 48

/-- `imm_W(v) = trunc_W(v)`: the low W bits of the integer v in two's complement, for any v (R11, R51). -/
def imm (W : Nat) (v : Int) : BitVec W := BitVec.ofInt W v

end Sys2Proof
end

