-- ==== Sys2Proof/WellFormed.lean ====
section
/-! DEFINITION. Well-formed instructions: those whose immediate is the value a reader of the word gets back. The ENCODER
accepts every integer (R21, R51: "No error path exists; out-of-range values silently truncate"), so nothing in the
machine asks for well-formedness; it is the condition under which decoding an encoded word gives the same instruction
back. -/

namespace Sys2Proof

/-- v is read back unchanged from a W-bit field read as unsigned. -/
def fitsUnsigned (W : Nat) (v : Int) : Bool := decide (0 ≤ v) && decide (v < 2 ^ W)

/-- v is read back unchanged from a W-bit field read as signed (R53, R56, R57). -/
def fitsSigned (W : Nat) (v : Int) : Bool := decide (-(2 ^ (W - 1)) ≤ v) && decide (v < 2 ^ (W - 1))

/-- The fields the source calls signed: the 9-bit offset and the 19- and 26-bit addresses (R53, R56, R57). For the
other three it gives no signedness (R52, R54, R55) and the model reads them back as unsigned (log entry 7). -/
def Layout.immSigned : Layout → Bool
  | .d | .cb | .bCond | .b => true
  | .r | .i | .im | .shift | .br => false

/-- v lies in the range that a layout's immediate field reads back. A layout with no immediate field asks nothing. -/
def Layout.immFits (l : Layout) (v : Int) : Bool :=
  match l.immWidth with
  | none => true
  | some W => if l.immSigned then fitsSigned W v else fitsUnsigned W v

/-- The immediate of an instruction, where it carries one (R15). -/
def Instr.imm? : Instr → Option Int
  | .add _ _ _ | .adds _ _ _ | .sub _ _ _ | .subs _ _ _ => none
  | .and _ _ _ | .ands _ _ _ | .orr _ _ _ | .eor _ _ _ => none
  | .addi _ _ imm | .addis _ _ imm | .subi _ _ imm | .subis _ _ imm => some imm
  | .andi _ _ imm | .andis _ _ imm | .orri _ _ imm | .eori _ _ imm => some imm
  | .stur _ _ off | .ldur _ _ off | .sturb _ _ off | .ldurb _ _ off => some off
  | .movz _ imm _ | .movk _ imm _ => some imm
  | .lsr _ _ shamt | .lsl _ _ shamt => some shamt
  | .cbz _ addr | .cbnz _ addr | .bCond _ addr => some addr
  | .b addr | .bl addr => some addr
  | .br _ => none

/-- The instruction's immediate lies in the range its field reads back. -/
def Instr.wf (i : Instr) : Bool :=
  match i.imm? with
  | none => true
  | some v => i.kind.layout.immFits v

end Sys2Proof
end

