-- ==== Sys2Proof/Decode.lean ====
section
/-! DEFINITION. The spec's encoding tables with their default parameter values (R45, R49, R69); a decoder for the subset
built from `opcode_table.json`'s mask and match as R72 and R73 ask; after it, the encoder written from the same tables.
The block itself never decodes (R72), and its own words are made in Machine/Ops.lean from the rules' pseudocode. -/

namespace Sys2Proof

/-- The default `OPC` table (R45). Only STUR, ADDI, B and BR are the source's; the other 26 literals are defaults from
general knowledge (D6, log entry 2). -/
def opcSpec : (k : Kind) → BitVec k.layout.opcWidth
  | .add => 0b10001011000#11
  | .adds => 0b10101011000#11
  | .sub => 0b11001011000#11
  | .subs => 0b11101011000#11
  | .and => 0b10001010000#11
  | .ands => 0b11101010000#11
  | .orr => 0b10101010000#11
  | .eor => 0b11001010000#11
  | .addi => 0b1001000100#10
  | .addis => 0b1011000100#10
  | .subi => 0b1101000100#10
  | .subis => 0b1111000100#10
  | .andi => 0b1001001000#10
  | .andis => 0b1111001000#10
  | .orri => 0b1011001000#10
  | .eori => 0b1101001000#10
  | .stur => 0b11111000000#11
  | .ldur => 0b11111000010#11
  | .sturb => 0b00111000000#11
  | .ldurb => 0b00111000010#11
  | .movz => 0b110100101#9
  | .movk => 0b111100101#9
  | .lsr => 0b11010011010#11
  | .lsl => 0b11010011011#11
  | .cbz => 0b10110100#8
  | .cbnz => 0b10110101#8
  | .bCond => 0b01010100#8
  | .b => 0b000101#6
  | .bl => 0b100101#6
  | .br => 0b11010110000#11

/-- The default `COND_ORDINAL`: the ARMv8 order (R49, D9, log entry 4). -/
def condOrdinalSpec : Cond → BitVec 4
  | .eq => 0
  | .ne => 1
  | .hs => 2
  | .lo => 3
  | .mi => 4
  | .pl => 5
  | .vs => 6
  | .vc => 7
  | .hi => 8
  | .ls => 9
  | .ge => 10
  | .lt => 11
  | .gt => 12
  | .le => 13
  | .al => 14
  | .nv => 15

/-- The parameter values this spec takes: the defaults of `OPC` and `COND_ORDINAL`, and `BR_RN_LSB = 0` (R8, R69). -/
def Params.spec : Params where
  opc := opcSpec
  brRnLsb := .lsb0
  condOrdinal := condOrdinalSpec

/-- The thirty kinds, in the order of R44. -/
def Kind.all : List Kind :=
  [.add, .adds, .sub, .subs, .and, .ands, .orr, .eor,
   .addi, .addis, .subi, .subis, .andi, .andis, .orri, .eori] ++
  [.stur, .ldur, .sturb, .ldurb, .movz, .movk, .lsr, .lsl, .cbz, .cbnz, .bCond, .b, .bl, .br]

/-- A layout's `mask`: its fixed bits, the opcode field and every bit forced to 0 (R46, R73; for BR with the parameter
at 5, the note of its row in `opcode_table.json`). -/
def Layout.mask (pos : BrRnLsb) : Layout → Word
  | .r => 0xFFE0FC00
  | .i => 0xFFC00000
  | .d => 0xFFE00C00
  | .im => 0xFF800000
  | .shift => 0xFFFF0000
  | .cb => 0xFF000000
  | .bCond => 0xFF000010
  | .b => 0xFC000000
  | .br => match pos with
    | .lsb0 => 0xFFFFFFE0
    | .lsb5 => 0xFFFFFC1F

/-- The mask of a kind (R73). -/
def maskOf (P : Params) (k : Kind) : Word := k.layout.mask P.brRnLsb

/-- The match of a kind: `OPC(k) << opcode_lsb` (R73). -/
def matchOf (P : Params) (k : Kind) : Word := (P.opc k).setWidth 32 <<< k.layout.opcLsb

/-- "A word w is of kind k exactly when `(w & mask_k) == match_k`" (R73). -/
def wordIsKind (P : Params) (w : Word) (k : Kind) : Bool := w &&& maskOf P k == matchOf P k

/-- No two kinds' fixed bits agree on every bit fixed in both (R46). The default parameters have this property; a model
that replaces them "must recheck" it. -/
def Params.patternsDisjoint (P : Params) : Bool :=
  Kind.all.all fun k => Kind.all.all fun k' =>
    k == k' || (matchOf P k ^^^ matchOf P k') &&& maskOf P k &&& maskOf P k' != 0

/-- Distinct conditions have distinct codes (R59). -/
def Params.condsDistinct (P : Params) : Bool :=
  allConds.all fun c => allConds.all fun c' => c == c' || P.condOrdinal c != P.condOrdinal c'

/-- The n bits of a word from bit lo up. -/
def slice (lo n : Nat) (w : Word) : BitVec n := w.extractLsb' lo n

/-- The integer a layout's immediate field reads back as: signed where the source calls the field signed, else unsigned
(R53, R56, R57; log entry 7). -/
def Layout.readImm (l : Layout) {W : Nat} (bits : BitVec W) : Int :=
  if l.immSigned then bits.toInt else (bits.toNat : Int)

/-- The operands of a word of kind k, field by field (R61 to R69). -/
def operandsOf (P : Params) (w : Word) : Kind → Option Instr
  | .add => some (.add (regOfCode (slice 0 5 w)) (regOfCode (slice 5 5 w)) (regOfCode (slice 16 5 w)))
  | .adds => some (.adds (regOfCode (slice 0 5 w)) (regOfCode (slice 5 5 w)) (regOfCode (slice 16 5 w)))
  | .sub => some (.sub (regOfCode (slice 0 5 w)) (regOfCode (slice 5 5 w)) (regOfCode (slice 16 5 w)))
  | .subs => some (.subs (regOfCode (slice 0 5 w)) (regOfCode (slice 5 5 w)) (regOfCode (slice 16 5 w)))
  | .and => some (.and (regOfCode (slice 0 5 w)) (regOfCode (slice 5 5 w)) (regOfCode (slice 16 5 w)))
  | .ands => some (.ands (regOfCode (slice 0 5 w)) (regOfCode (slice 5 5 w)) (regOfCode (slice 16 5 w)))
  | .orr => some (.orr (regOfCode (slice 0 5 w)) (regOfCode (slice 5 5 w)) (regOfCode (slice 16 5 w)))
  | .eor => some (.eor (regOfCode (slice 0 5 w)) (regOfCode (slice 5 5 w)) (regOfCode (slice 16 5 w)))
  | .addi => some (.addi (regOfCode (slice 0 5 w)) (regOfCode (slice 5 5 w)) (Layout.i.readImm (slice 10 12 w)))
  | .addis => some (.addis (regOfCode (slice 0 5 w)) (regOfCode (slice 5 5 w)) (Layout.i.readImm (slice 10 12 w)))
  | .subi => some (.subi (regOfCode (slice 0 5 w)) (regOfCode (slice 5 5 w)) (Layout.i.readImm (slice 10 12 w)))
  | .subis => some (.subis (regOfCode (slice 0 5 w)) (regOfCode (slice 5 5 w)) (Layout.i.readImm (slice 10 12 w)))
  | .andi => some (.andi (regOfCode (slice 0 5 w)) (regOfCode (slice 5 5 w)) (Layout.i.readImm (slice 10 12 w)))
  | .andis => some (.andis (regOfCode (slice 0 5 w)) (regOfCode (slice 5 5 w)) (Layout.i.readImm (slice 10 12 w)))
  | .orri => some (.orri (regOfCode (slice 0 5 w)) (regOfCode (slice 5 5 w)) (Layout.i.readImm (slice 10 12 w)))
  | .eori => some (.eori (regOfCode (slice 0 5 w)) (regOfCode (slice 5 5 w)) (Layout.i.readImm (slice 10 12 w)))
  | .stur => some (.stur (regOfCode (slice 0 5 w)) (regOfCode (slice 5 5 w)) (Layout.d.readImm (slice 12 9 w)))
  | .ldur => some (.ldur (regOfCode (slice 0 5 w)) (regOfCode (slice 5 5 w)) (Layout.d.readImm (slice 12 9 w)))
  | .sturb => some (.sturb (regOfCode (slice 0 5 w)) (regOfCode (slice 5 5 w)) (Layout.d.readImm (slice 12 9 w)))
  | .ldurb => some (.ldurb (regOfCode (slice 0 5 w)) (regOfCode (slice 5 5 w)) (Layout.d.readImm (slice 12 9 w)))
  | .movz => some (.movz (regOfCode (slice 0 5 w)) (Layout.im.readImm (slice 5 16 w)) (shiftOfCode (slice 21 2 w)))
  | .movk => some (.movk (regOfCode (slice 0 5 w)) (Layout.im.readImm (slice 5 16 w)) (shiftOfCode (slice 21 2 w)))
  | .lsr => some (.lsr (regOfCode (slice 0 5 w)) (regOfCode (slice 5 5 w)) (Layout.shift.readImm (slice 10 6 w)))
  | .lsl => some (.lsl (regOfCode (slice 0 5 w)) (regOfCode (slice 5 5 w)) (Layout.shift.readImm (slice 10 6 w)))
  | .cbz => some (.cbz (regOfCode (slice 0 5 w)) (Layout.cb.readImm (slice 5 19 w)))
  | .cbnz => some (.cbnz (regOfCode (slice 0 5 w)) (Layout.cb.readImm (slice 5 19 w)))
  | .bCond => (condOfCode P (slice 0 4 w)).map fun c => .bCond c (Layout.bCond.readImm (slice 5 19 w))
  | .b => some (.b (Layout.b.readImm (slice 0 26 w)))
  | .bl => some (.bl (Layout.b.readImm (slice 0 26 w)))
  | .br => some (.br (regOfCode (match P.brRnLsb with
      | .lsb0 => slice 0 5 w
      | .lsb5 => slice 5 5 w)))

/-- Why a decoder for this subset answers no instruction. -/
inductive DecodeError where
  /-- The word matches none of the thirty patterns (R72, D8): it must be mapped to no kind. Safe. -/
  | spellsNoInstruction (w : Word)
  /-- Fewer than four bytes are left: every instruction is exactly 32 bits (R71). Safe. -/
  | truncated (bytes : Nat)
deriving DecidableEq, Repr

/-- The decoder of R72 and R73 under any parameter values: the kind whose pattern the word matches, then its operands. -/
def decodeWith (P : Params) (w : Word) : Except DecodeError Instr :=
  match Kind.all.find? (wordIsKind P w) with
  | none => .error (.spellsNoInstruction w)
  | some k =>
    match operandsOf P w k with
    | none => .error (.spellsNoInstruction w)
    | some i => .ok i

/-- The decoder under the spec's parameter values. -/
def decode (w : Word) : Except DecodeError Instr := decodeWith Params.spec w

/-- What the decoder reads from an instruction whose bits are w, numbered as `opcode_table.json` numbers them. Every
instruction is exactly 32 bits (R71), so any other number of bits is no instruction's. -/
def decodeTableWord (nbits w : Nat) : Option Instr :=
  if nbits = 32 ∧ w < 2 ^ nbits then
    match decode (BitVec.ofNat 32 w) with
    | .ok i => some i
    | .error _ => none
  else none

/-- A field's bits placed from bit lo up, in a word that is 0 elsewhere. -/
def place {n : Nat} (lo : Nat) (v : BitVec n) : Word := v.setWidth 32 <<< lo

/-- The operand bits of an instruction's word, every field at its place in the layout (R61 to R69). -/
def operandBits (P : Params) : Instr → Word
  | .add rd rn rm | .adds rd rn rm | .sub rd rn rm | .subs rd rn rm
  | .and rd rn rm | .ands rd rn rm | .orr rd rn rm | .eor rd rn rm =>
    place 16 (reg5 rm) ||| place 5 (reg5 rn) ||| place 0 (reg5 rd)
  | .addi rd rn v | .addis rd rn v | .subi rd rn v | .subis rd rn v
  | .andi rd rn v | .andis rd rn v | .orri rd rn v | .eori rd rn v =>
    place 10 (imm 12 v) ||| place 5 (reg5 rn) ||| place 0 (reg5 rd)
  | .stur rt rn off | .ldur rt rn off | .sturb rt rn off | .ldurb rt rn off =>
    place 12 (imm 9 off) ||| place 5 (reg5 rn) ||| place 0 (reg5 rt)
  | .movz rd v hw | .movk rd v hw =>
    place 21 (shift2 hw) ||| place 5 (imm 16 v) ||| place 0 (reg5 rd)
  | .lsr rd rn shamt | .lsl rd rn shamt =>
    place 10 (imm 6 shamt) ||| place 5 (reg5 rn) ||| place 0 (reg5 rd)
  | .cbz rt addr | .cbnz rt addr => place 5 (imm 19 addr) ||| place 0 (reg5 rt)
  | .bCond c addr => place 5 (imm 19 addr) ||| place 0 (cond5 P c)
  | .b addr | .bl addr => place 0 (imm 26 addr)
  | .br rn => match P.brRnLsb with
    | .lsb0 => place 0 (reg5 rn)
    | .lsb5 => place 5 (reg5 rn)

/-- The encoder from the tables: the kind's match with the operand bits (R43, R70, R73), under any parameter values. -/
def encodeWith (P : Params) (i : Instr) : Word := matchOf P i.kind ||| operandBits P i

/-- The word of an instruction under the spec's parameter values (R14, R70). -/
def encode (i : Instr) : Word := encodeWith Params.spec i

/-- The instruction with its immediate replaced by the value its field reads back: what a decoder can know of it. -/
def Instr.canonical (i : Instr) : Instr :=
  match i.kind.layout.immWidth with
  | none => i
  | some W => i.mapImm fun v => i.kind.layout.readImm (imm W v)

/-- A word as four bytes in a given order (`WORD_BYTE_ORDER`, R31, D11: the source's consumer never does this). -/
def bytesOfWord (o : ByteOrder) (w : Word) : List Byte :=
  match o with
  | .leastFirst => [slice 0 8 w, slice 8 8 w, slice 16 8 w, slice 24 8 w]
  | .mostFirst => [slice 24 8 w, slice 16 8 w, slice 8 8 w, slice 0 8 w]

/-- The word that four bytes in a given order stand for. -/
def wordOfBytes (o : ByteOrder) (b0 b1 b2 b3 : Byte) : Word :=
  match o with
  | .leastFirst => b3 ++ b2 ++ b1 ++ b0
  | .mostFirst => b0 ++ b1 ++ b2 ++ b3

/-- The decoder on bytes, total: one instruction from the first four, with the bytes after them (R71: "each word is one
instruction"). -/
def decodeBytes (P : Params) (o : ByteOrder) : List Byte → Except DecodeError (Instr × List Byte)
  | b0 :: b1 :: b2 :: b3 :: rest =>
    match decodeWith P (wordOfBytes o b0 b1 b2 b3) with
    | .ok i => .ok (i, rest)
    | .error e => .error e
  | bs => .error (.truncated bs.length)

end Sys2Proof
end

