-- ==== Sys2Proof/Machine/State.lean ====
section
/-! DEFINITION. The state of the system the spec describes: the block's ports (R22), and around it what the host holds
of its duties (R33, R119) and the ROMs generated so far (R34). The block itself stores nothing (R13, R14): its
output port is at every instant the encoding of its input ports (R28), which `Sys2Proof.Machine.Settled` says and
driving the ports and every step keep. -/

namespace Sys2Proof.Machine

/-- Why a step could stop with a fault: never. "The encoder raises no exception, for any kind and any operand value"
(R113), there is no interrupt (R120) and no trap (R122), so the type has no constructor. Safe. -/
inductive Fault where
deriving DecidableEq, Repr

/-- Why a step has no meaning. -/
inductive Refusal where
  /-- Raised by `exec` for an instruction whose meaning is not written yet. No arm raises it. Safe. -/
  | notModelled (mnemonic : String)
  /-- Raised by `step` when the `kind` port carries 30 or 31, which name no instruction: the spec refuses that input
  and a model must give it no word (R23, R114, D3). Safe. -/
  | kindNamesNoInstruction (code : BitVec 5)
deriving DecidableEq, Repr

/-- A generated ROM: its contents, word i at address i, fixed when its text is made (R34, R40), and what its address
input carries (R34). Who drives that input and when is not in the spec (R129, N10); that only the outside world does,
by `State.driveAddress`, and no step, is the model's choice (log entry 24). -/
structure Rom where
  contents : List Word
  address : BitVec 16
deriving DecidableEq, Repr

/-- The state. `ports` and `word` are the block's inputs and output (R22); `word` is `none` while the inputs name no
instruction, for the spec gives such an input no word (R23, R114). `pending` and `words` are the host's: the retained
instructions it has still to present, in source order, and the words it has collected, word i being that of the i-th
retained instruction (R33, R119). `roms` are the ROMs whose text has been generated, oldest first (R34, R40). `draws` is
the model's own: how many times the host has presented an instruction, which the free value `Config.undrivenPorts` is
applied to (log entry 6). -/
structure State where
  ports : Ports
  word : Option Word
  pending : List Instr
  words : List Word
  roms : List Rom
  draws : Nat
deriving DecidableEq, Repr

/-- After power-up. The block has no state to reset (R28, R128): its output is the encoding of its present inputs. What
its inputs carry then is not in the spec: all zero (log entry 8), which is `ADD X0, X0, X0` with the word 0x8B000000.
The host has nothing to present and has collected nothing, and no ROM has been generated. -/
def State.reset : State where
  ports := { kind := 0, rd := 0, rn := 0, rm := 0, cond := 0, hw := 0, imm := 0 }
  word := some 0x8B000000
  pending := []
  words := []
  roms := []
  draws := 0

end Sys2Proof.Machine
end

