-- ==== Sys2Proof/Machine/Ops.lean ====
section
/-! DEFINITION. The operations every meaning is written over: writing one field of the output word (R11), the nine
layouts' pseudocode (R61 to R69, R83 to R112), and driving the output port. The block takes no exception and has no
return from one (R113, R122, R123), reads and writes no memory (R29) and has no flag (R26), so there is no operation
for any of these. -/

namespace Sys2Proof.Machine

/-- `word[lo+n-1:lo] <- v`: those bits of the word receive v, every other bit stays (R11). -/
def setField {n : Nat} (word : Word) (lo : Nat) (v : BitVec n) : Word :=
  (word &&& ~~~((BitVec.allOnes n).setWidth 32 <<< lo)) ||| (v.setWidth 32 <<< lo)

/-- R layout (R61): `word[31:21] <- OPC`, `word[20:16] <- reg5(Rm)`, `word[9:5] <- reg5(Rn)`, `word[4:0] <- reg5(Rd)`. -/
def packR (opc : BitVec 11) (rd rn rm : Reg) : Word :=
  let word : Word := 0
  let word := setField word 21 opc
  let word := setField word 16 (reg5 rm)
  let word := setField word 5 (reg5 rn)
  setField word 0 (reg5 rd)

/-- I layout (R62): `word[31:22] <- OPC`, `word[21:10] <- imm_12(imm)`, `word[9:5] <- reg5(Rn)`,
`word[4:0] <- reg5(Rd)`. -/
def packI (opc : BitVec 10) (rd rn : Reg) (v : Int) : Word :=
  let word : Word := 0
  let word := setField word 22 opc
  let word := setField word 10 (imm 12 v)
  let word := setField word 5 (reg5 rn)
  setField word 0 (reg5 rd)

/-- D layout (R63): `word[31:21] <- OPC`, `word[20:12] <- imm_9(off)`, `word[9:5] <- reg5(Rn)`,
`word[4:0] <- reg5(Rt)`. -/
def packD (opc : BitVec 11) (rt rn : Reg) (off : Int) : Word :=
  let word : Word := 0
  let word := setField word 21 opc
  let word := setField word 12 (imm 9 off)
  let word := setField word 5 (reg5 rn)
  setField word 0 (reg5 rt)

/-- IM layout (R64): `word[31:23] <- OPC`, `word[22:21] <- shift2(hw)`, `word[20:5] <- imm_16(imm)`,
`word[4:0] <- reg5(Rd)`. -/
def packIm (opc : BitVec 9) (rd : Reg) (v : Int) (hw : ShiftAmount) : Word :=
  let word : Word := 0
  let word := setField word 23 opc
  let word := setField word 21 (shift2 hw)
  let word := setField word 5 (imm 16 v)
  setField word 0 (reg5 rd)

/-- Shift layout (R65): `word[31:21] <- OPC`, `word[15:10] <- imm_6(shamt)`, `word[9:5] <- reg5(Rn)`,
`word[4:0] <- reg5(Rd)`. -/
def packShift (opc : BitVec 11) (rd rn : Reg) (shamt : Int) : Word :=
  let word : Word := 0
  let word := setField word 21 opc
  let word := setField word 10 (imm 6 shamt)
  let word := setField word 5 (reg5 rn)
  setField word 0 (reg5 rd)

/-- CB layout (R66): `word[31:24] <- OPC`, `word[23:5] <- imm_19(addr)`, `word[4:0] <- reg5(Rt)`. -/
def packCb (opc : BitVec 8) (rt : Reg) (addr : Int) : Word :=
  let word : Word := 0
  let word := setField word 24 opc
  let word := setField word 5 (imm 19 addr)
  setField word 0 (reg5 rt)

/-- B.cond layout (R67): `word[31:24] <- OPC`, `word[23:5] <- imm_19(addr)`, `word[4:0] <- zext_5(cond4(cond))`. The
argument `cc` is `cond4(cond)`. -/
def packBCond (opc : BitVec 8) (cc : BitVec 4) (addr : Int) : Word :=
  let word : Word := 0
  let word := setField word 24 opc
  let word := setField word 5 (imm 19 addr)
  setField word 0 (cc.setWidth 5)

/-- B/BL layout (R68): `word[31:26] <- OPC`, `word[25:0] <- imm_26(addr)`. -/
def packB (opc : BitVec 6) (addr : Int) : Word :=
  let word : Word := 0
  let word := setField word 26 opc
  setField word 0 (imm 26 addr)

/-- BR layout (R69): `word[31:21] <- OPC`, `word[4:0] <- reg5(Rn)`; with `BR_RN_LSB = 5`, `word[9:5] <- reg5(Rn)`. -/
def packBr (pos : BrRnLsb) (opc : BitVec 11) (rn : Reg) : Word :=
  let word : Word := 0
  let word := setField word 21 opc
  match pos with
  | .lsb0 => setField word 0 (reg5 rn)
  | .lsb5 => setField word 5 (reg5 rn)

/-- The output port carries a word. -/
def State.setWord (s : State) (w : Word) : State := { s with word := some w }

/-- The block's one effect: its output port carries the word; nothing else changes (R13, R14, R16). -/
def emit (w : Word) (s : State) : Host.Outcome State Fault Refusal := .next (s.setWord w)

end Sys2Proof.Machine
end

