-- ==== Sys2Proof/Machine/BFormat.lean ====
section
/-! DEFINITION. Meanings of the B-format branches (R110, R111).
The block packs the operands and the kind's opcode literal into its output word. What the words do when a core runs
them is not in the spec (R7). -/

namespace Sys2Proof.Machine

/-- `B` (R110). -/
def execB (addr : Int) (s : State) : Host.Outcome State Fault Refusal :=
  emit (packB (Params.spec.opc .b) addr) s

/-- `BL` (R111). -/
def execBl (addr : Int) (s : State) : Host.Outcome State Fault Refusal :=
  emit (packB (Params.spec.opc .bl) addr) s

end Sys2Proof.Machine
end

