-- ==== Sys2Proof/Machine/BrFormat.lean ====
section
/-! DEFINITION. Meanings of the register branch (R112).
The block packs the operands and the kind's opcode literal into its output word. What the words do when a core runs
them is not in the spec (R7). -/

namespace Sys2Proof.Machine

/-- `BR` (R112), with the register where `BR_RN_LSB` puts it. -/
def execBr (rn : Reg) (s : State) : Host.Outcome State Fault Refusal :=
  emit (packBr Params.spec.brRnLsb (Params.spec.opc .br) rn) s

end Sys2Proof.Machine
end

