-- ==== Sys2Proof/Machine/CbFormat.lean ====
section
/-! DEFINITION. Meanings of the CB-format and conditional branches (R107 to R109).
The block packs the operands and the kind's opcode literal into its output word. What the words do when a core runs
them is not in the spec (R7). -/

namespace Sys2Proof.Machine

/-- `CBZ` (R107). -/
def execCbz (rt : Reg) (addr : Int) (s : State) : Host.Outcome State Fault Refusal :=
  emit (packCb (Params.spec.opc .cbz) rt addr) s

/-- `CBNZ` (R108). -/
def execCbnz (rt : Reg) (addr : Int) (s : State) : Host.Outcome State Fault Refusal :=
  emit (packCb (Params.spec.opc .cbnz) rt addr) s

/-- `B.cond` (R109). -/
def execBCond (cond : Cond) (addr : Int) (s : State) : Host.Outcome State Fault Refusal :=
  emit (packBCond (Params.spec.opc .bCond) (cond4 Params.spec cond) addr) s

end Sys2Proof.Machine
end

