-- ==== Sys2Proof/Machine/DFormat.lean ====
section
/-! DEFINITION. Meanings of the D-format load and store kinds (R99 to R102).
The block packs the operands and the kind's opcode literal into its output word. What the words do when a core runs
them is not in the spec (R7). -/

namespace Sys2Proof.Machine

/-- `STUR` (R99). -/
def execStur (rt rn : Reg) (off : Int) (s : State) : Host.Outcome State Fault Refusal :=
  emit (packD (Params.spec.opc .stur) rt rn off) s

/-- `LDUR` (R100). -/
def execLdur (rt rn : Reg) (off : Int) (s : State) : Host.Outcome State Fault Refusal :=
  emit (packD (Params.spec.opc .ldur) rt rn off) s

/-- `STURB` (R101). -/
def execSturb (rt rn : Reg) (off : Int) (s : State) : Host.Outcome State Fault Refusal :=
  emit (packD (Params.spec.opc .sturb) rt rn off) s

/-- `LDURB` (R102). -/
def execLdurb (rt rn : Reg) (off : Int) (s : State) : Host.Outcome State Fault Refusal :=
  emit (packD (Params.spec.opc .ldurb) rt rn off) s

end Sys2Proof.Machine
end

