-- ==== Sys2Proof/Machine/IFormat.lean ====
section
/-! DEFINITION. Meanings of the I-format immediate kinds (R91 to R98).
The block packs the operands and the kind's opcode literal into its output word. What the words do when a core runs
them is not in the spec (R7). -/

namespace Sys2Proof.Machine

/-- `ADDI` (R91). -/
def execAddi (rd rn : Reg) (v : Int) (s : State) : Host.Outcome State Fault Refusal :=
  emit (packI (Params.spec.opc .addi) rd rn v) s

/-- `ADDIS` (R92). -/
def execAddis (rd rn : Reg) (v : Int) (s : State) : Host.Outcome State Fault Refusal :=
  emit (packI (Params.spec.opc .addis) rd rn v) s

/-- `SUBI` (R93). -/
def execSubi (rd rn : Reg) (v : Int) (s : State) : Host.Outcome State Fault Refusal :=
  emit (packI (Params.spec.opc .subi) rd rn v) s

/-- `SUBIS` (R94). -/
def execSubis (rd rn : Reg) (v : Int) (s : State) : Host.Outcome State Fault Refusal :=
  emit (packI (Params.spec.opc .subis) rd rn v) s

/-- `ANDI` (R95). -/
def execAndi (rd rn : Reg) (v : Int) (s : State) : Host.Outcome State Fault Refusal :=
  emit (packI (Params.spec.opc .andi) rd rn v) s

/-- `ANDIS` (R96). -/
def execAndis (rd rn : Reg) (v : Int) (s : State) : Host.Outcome State Fault Refusal :=
  emit (packI (Params.spec.opc .andis) rd rn v) s

/-- `ORRI` (R97). -/
def execOrri (rd rn : Reg) (v : Int) (s : State) : Host.Outcome State Fault Refusal :=
  emit (packI (Params.spec.opc .orri) rd rn v) s

/-- `EORI` (R98). -/
def execEori (rd rn : Reg) (v : Int) (s : State) : Host.Outcome State Fault Refusal :=
  emit (packI (Params.spec.opc .eori) rd rn v) s

end Sys2Proof.Machine
end

