-- ==== Sys2Proof/Machine/ImFormat.lean ====
section
/-! DEFINITION. Meanings of the IM-format wide moves (R103, R104).
The block packs the operands and the kind's opcode literal into its output word. What the words do when a core runs
them is not in the spec (R7). -/

namespace Sys2Proof.Machine

/-- `MOVZ` (R103). -/
def execMovz (rd : Reg) (v : Int) (hw : ShiftAmount) (s : State) : Host.Outcome State Fault Refusal :=
  emit (packIm (Params.spec.opc .movz) rd v hw) s

/-- `MOVK` (R104). -/
def execMovk (rd : Reg) (v : Int) (hw : ShiftAmount) (s : State) : Host.Outcome State Fault Refusal :=
  emit (packIm (Params.spec.opc .movk) rd v hw) s

end Sys2Proof.Machine
end

