-- ==== Sys2Proof/Machine/RFormat.lean ====
section
/-! DEFINITION. Meanings of the R-format arithmetic and logical kinds (R83 to R90).
The block packs the operands and the kind's opcode literal into its output word. What the words do when a core runs
them is not in the spec (R7). -/

namespace Sys2Proof.Machine

/-- `ADD` (R83). -/
def execAdd (rd rn rm : Reg) (s : State) : Host.Outcome State Fault Refusal :=
  emit (packR (Params.spec.opc .add) rd rn rm) s

/-- `ADDS` (R84). -/
def execAdds (rd rn rm : Reg) (s : State) : Host.Outcome State Fault Refusal :=
  emit (packR (Params.spec.opc .adds) rd rn rm) s

/-- `SUB` (R85). -/
def execSub (rd rn rm : Reg) (s : State) : Host.Outcome State Fault Refusal :=
  emit (packR (Params.spec.opc .sub) rd rn rm) s

/-- `SUBS` (R86). -/
def execSubs (rd rn rm : Reg) (s : State) : Host.Outcome State Fault Refusal :=
  emit (packR (Params.spec.opc .subs) rd rn rm) s

/-- `AND` (R87). -/
def execAnd (rd rn rm : Reg) (s : State) : Host.Outcome State Fault Refusal :=
  emit (packR (Params.spec.opc .and) rd rn rm) s

/-- `ANDS` (R88). -/
def execAnds (rd rn rm : Reg) (s : State) : Host.Outcome State Fault Refusal :=
  emit (packR (Params.spec.opc .ands) rd rn rm) s

/-- `ORR` (R89). -/
def execOrr (rd rn rm : Reg) (s : State) : Host.Outcome State Fault Refusal :=
  emit (packR (Params.spec.opc .orr) rd rn rm) s

/-- `EOR` (R90). -/
def execEor (rd rn rm : Reg) (s : State) : Host.Outcome State Fault Refusal :=
  emit (packR (Params.spec.opc .eor) rd rn rm) s

end Sys2Proof.Machine
end

