-- ==== Sys2Proof/Machine/ShiftFormat.lean ====
section
/-! DEFINITION. Meanings of the shift kinds (R105, R106).
The block packs the operands and the kind's opcode literal into its output word. What the words do when a core runs
them is not in the spec (R7). -/

namespace Sys2Proof.Machine

/-- `LSR` (R105). -/
def execLsr (rd rn : Reg) (shamt : Int) (s : State) : Host.Outcome State Fault Refusal :=
  emit (packShift (Params.spec.opc .lsr) rd rn shamt) s

/-- `LSL` (R106). -/
def execLsl (rd rn : Reg) (shamt : Int) (s : State) : Host.Outcome State Fault Refusal :=
  emit (packShift (Params.spec.opc .lsl) rd rn shamt) s

end Sys2Proof.Machine
end

