-- ==== Sys2Proof/Machine/Dispatch.lean ====
section
/-! DEFINITION. One arm per instruction, one direct call of its meaning. -/

namespace Sys2Proof.Machine

def exec (i : Instr) (s : State) : Host.Outcome State Fault Refusal :=
  match i with
  | .add rd rn rm => Sys2Proof.Machine.execAdd rd rn rm s
  | .adds rd rn rm => Sys2Proof.Machine.execAdds rd rn rm s
  | .sub rd rn rm => Sys2Proof.Machine.execSub rd rn rm s
  | .subs rd rn rm => Sys2Proof.Machine.execSubs rd rn rm s
  | .and rd rn rm => Sys2Proof.Machine.execAnd rd rn rm s
  | .ands rd rn rm => Sys2Proof.Machine.execAnds rd rn rm s
  | .orr rd rn rm => Sys2Proof.Machine.execOrr rd rn rm s
  | .eor rd rn rm => Sys2Proof.Machine.execEor rd rn rm s
  | .addi rd rn v => Sys2Proof.Machine.execAddi rd rn v s
  | .addis rd rn v => Sys2Proof.Machine.execAddis rd rn v s
  | .subi rd rn v => Sys2Proof.Machine.execSubi rd rn v s
  | .subis rd rn v => Sys2Proof.Machine.execSubis rd rn v s
  | .andi rd rn v => Sys2Proof.Machine.execAndi rd rn v s
  | .andis rd rn v => Sys2Proof.Machine.execAndis rd rn v s
  | .orri rd rn v => Sys2Proof.Machine.execOrri rd rn v s
  | .eori rd rn v => Sys2Proof.Machine.execEori rd rn v s
  | .stur rt rn off => Sys2Proof.Machine.execStur rt rn off s
  | .ldur rt rn off => Sys2Proof.Machine.execLdur rt rn off s
  | .sturb rt rn off => Sys2Proof.Machine.execSturb rt rn off s
  | .ldurb rt rn off => Sys2Proof.Machine.execLdurb rt rn off s
  | .movz rd v hw => Sys2Proof.Machine.execMovz rd v hw s
  | .movk rd v hw => Sys2Proof.Machine.execMovk rd v hw s
  | .lsr rd rn shamt => Sys2Proof.Machine.execLsr rd rn shamt s
  | .lsl rd rn shamt => Sys2Proof.Machine.execLsl rd rn shamt s
  | .cbz rt addr => Sys2Proof.Machine.execCbz rt addr s
  | .cbnz rt addr => Sys2Proof.Machine.execCbnz rt addr s
  | .bCond cond addr => Sys2Proof.Machine.execBCond cond addr s
  | .b addr => Sys2Proof.Machine.execB addr s
  | .bl addr => Sys2Proof.Machine.execBl addr s
  | .br rn => Sys2Proof.Machine.execBr rn s

end Sys2Proof.Machine
end

