-- ==== Sys2Proof/Machine/Ports.lean ====
section
/-! DEFINITION. The port-level form of the input (R22 to R24): the kind codes of R44, the ports an instruction drives,
and the instruction the ports carry. -/

namespace Sys2Proof.Machine

/-- The code of a kind on the `kind` port (R23, R44). -/
def kindCode : Kind → BitVec 5
  | .add => 0
  | .adds => 1
  | .sub => 2
  | .subs => 3
  | .and => 4
  | .ands => 5
  | .orr => 6
  | .eor => 7
  | .addi => 8
  | .addis => 9
  | .subi => 10
  | .subis => 11
  | .andi => 12
  | .andis => 13
  | .orri => 14
  | .eori => 15
  | .stur => 16
  | .ldur => 17
  | .sturb => 18
  | .ldurb => 19
  | .movz => 20
  | .movk => 21
  | .lsr => 22
  | .lsl => 23
  | .cbz => 24
  | .cbnz => 25
  | .bCond => 26
  | .b => 27
  | .bl => 28
  | .br => 29

/-- The kind a code names; 30 and 31 name none (R23). -/
def kindOfCode (c : BitVec 5) : Option Kind := Kind.all.find? fun k => kindCode k == c

/-- The ports with the operands of an R layout driven (R15, R22). -/
def driveR (u : Ports) (k : Kind) (rd rn rm : Reg) : Ports :=
  { u with kind := kindCode k, rd := reg5 rd, rn := reg5 rn, rm := reg5 rm }

/-- The ports with two registers and an immediate driven: the I, D and Shift layouts (Rt goes on the `rd` port). -/
def driveRegsImm (u : Ports) (k : Kind) (rd rn : Reg) (v : Int) : Ports :=
  { u with kind := kindCode k, rd := reg5 rd, rn := reg5 rn, imm := imm 32 v }

/-- The ports an instruction drives (R22), over u on the ports its kind does not name. The immediate goes out as
`trunc_32` of its value. -/
def portsOf (P : Params) (u : Ports) : Instr → Ports
  | .add rd rn rm => driveR u .add rd rn rm
  | .adds rd rn rm => driveR u .adds rd rn rm
  | .sub rd rn rm => driveR u .sub rd rn rm
  | .subs rd rn rm => driveR u .subs rd rn rm
  | .and rd rn rm => driveR u .and rd rn rm
  | .ands rd rn rm => driveR u .ands rd rn rm
  | .orr rd rn rm => driveR u .orr rd rn rm
  | .eor rd rn rm => driveR u .eor rd rn rm
  | .addi rd rn v => driveRegsImm u .addi rd rn v
  | .addis rd rn v => driveRegsImm u .addis rd rn v
  | .subi rd rn v => driveRegsImm u .subi rd rn v
  | .subis rd rn v => driveRegsImm u .subis rd rn v
  | .andi rd rn v => driveRegsImm u .andi rd rn v
  | .andis rd rn v => driveRegsImm u .andis rd rn v
  | .orri rd rn v => driveRegsImm u .orri rd rn v
  | .eori rd rn v => driveRegsImm u .eori rd rn v
  | .stur rt rn off => driveRegsImm u .stur rt rn off
  | .ldur rt rn off => driveRegsImm u .ldur rt rn off
  | .sturb rt rn off => driveRegsImm u .sturb rt rn off
  | .ldurb rt rn off => driveRegsImm u .ldurb rt rn off
  | .movz rd v hw => { u with kind := kindCode .movz, rd := reg5 rd, imm := imm 32 v, hw := shift2 hw }
  | .movk rd v hw => { u with kind := kindCode .movk, rd := reg5 rd, imm := imm 32 v, hw := shift2 hw }
  | .lsr rd rn shamt => driveRegsImm u .lsr rd rn shamt
  | .lsl rd rn shamt => driveRegsImm u .lsl rd rn shamt
  | .cbz rt addr => { u with kind := kindCode .cbz, rd := reg5 rt, imm := imm 32 addr }
  | .cbnz rt addr => { u with kind := kindCode .cbnz, rd := reg5 rt, imm := imm 32 addr }
  | .bCond c addr => { u with kind := kindCode .bCond, cond := cond4 P c, imm := imm 32 addr }
  | .b addr => { u with kind := kindCode .b, imm := imm 32 addr }
  | .bl addr => { u with kind := kindCode .bl, imm := imm 32 addr }
  | .br rn => { u with kind := kindCode .br, rn := reg5 rn }

/-- The instruction of kind k that the ports carry, each operand read from its port; the immediate as the
two's-complement value of the bus (R22, D4). -/
def operandsOnPorts (P : Params) (p : Ports) : Kind → Option Instr
  | .add => some (.add (regOfCode p.rd) (regOfCode p.rn) (regOfCode p.rm))
  | .adds => some (.adds (regOfCode p.rd) (regOfCode p.rn) (regOfCode p.rm))
  | .sub => some (.sub (regOfCode p.rd) (regOfCode p.rn) (regOfCode p.rm))
  | .subs => some (.subs (regOfCode p.rd) (regOfCode p.rn) (regOfCode p.rm))
  | .and => some (.and (regOfCode p.rd) (regOfCode p.rn) (regOfCode p.rm))
  | .ands => some (.ands (regOfCode p.rd) (regOfCode p.rn) (regOfCode p.rm))
  | .orr => some (.orr (regOfCode p.rd) (regOfCode p.rn) (regOfCode p.rm))
  | .eor => some (.eor (regOfCode p.rd) (regOfCode p.rn) (regOfCode p.rm))
  | .addi => some (.addi (regOfCode p.rd) (regOfCode p.rn) p.imm.toInt)
  | .addis => some (.addis (regOfCode p.rd) (regOfCode p.rn) p.imm.toInt)
  | .subi => some (.subi (regOfCode p.rd) (regOfCode p.rn) p.imm.toInt)
  | .subis => some (.subis (regOfCode p.rd) (regOfCode p.rn) p.imm.toInt)
  | .andi => some (.andi (regOfCode p.rd) (regOfCode p.rn) p.imm.toInt)
  | .andis => some (.andis (regOfCode p.rd) (regOfCode p.rn) p.imm.toInt)
  | .orri => some (.orri (regOfCode p.rd) (regOfCode p.rn) p.imm.toInt)
  | .eori => some (.eori (regOfCode p.rd) (regOfCode p.rn) p.imm.toInt)
  | .stur => some (.stur (regOfCode p.rd) (regOfCode p.rn) p.imm.toInt)
  | .ldur => some (.ldur (regOfCode p.rd) (regOfCode p.rn) p.imm.toInt)
  | .sturb => some (.sturb (regOfCode p.rd) (regOfCode p.rn) p.imm.toInt)
  | .ldurb => some (.ldurb (regOfCode p.rd) (regOfCode p.rn) p.imm.toInt)
  | .movz => some (.movz (regOfCode p.rd) p.imm.toInt (shiftOfCode p.hw))
  | .movk => some (.movk (regOfCode p.rd) p.imm.toInt (shiftOfCode p.hw))
  | .lsr => some (.lsr (regOfCode p.rd) (regOfCode p.rn) p.imm.toInt)
  | .lsl => some (.lsl (regOfCode p.rd) (regOfCode p.rn) p.imm.toInt)
  | .cbz => some (.cbz (regOfCode p.rd) p.imm.toInt)
  | .cbnz => some (.cbnz (regOfCode p.rd) p.imm.toInt)
  | .bCond => (condOfCode P p.cond).map fun c => .bCond c p.imm.toInt
  | .b => some (.b p.imm.toInt)
  | .bl => some (.bl p.imm.toInt)
  | .br => some (.br (regOfCode p.rn))

/-- The instruction the ports carry, none where the `kind` code names none (R23). -/
def ofPorts (P : Params) (p : Ports) : Option Instr :=
  match kindOfCode p.kind with
  | none => none
  | some k => operandsOnPorts P p k

/-- The word at the port level, as a function of the present inputs only (R14, R24); no word for a refused input
(R114). -/
def portWord (P : Params) (p : Ports) : Option Word := (ofPorts P p).map (encodeWith P)

end Sys2Proof.Machine
end

