-- ==== Sys2Proof/Machine/Feed.lean ====
section
/-! DEFINITION. The host's side of one encode (R119): it presents the next retained instruction on the block's ports, in
source order (R33), and collects the word the block returns. Evaluating encodes in parallel is the host's liberty and
gives the same sequence (R38), so the model takes them one by one (log entry 9). -/

namespace Sys2Proof.Machine

/-- The ports are driven, by the host or by whatever else is wired to them, and the output follows at once (R14, R28): the
word of the instruction they carry, and no word where they carry none (R23, R114). -/
def State.drive (s : State) (p : Ports) : State := { s with ports := p, word := portWord Params.spec p }

/-- The host's move before an encode: the next retained instruction goes onto the ports. With none pending the ports
keep what they carry. -/
def State.present (s : State) : State :=
  match s.pending with
  | [] => s
  | i :: rest =>
    { s.drive (portsOf Params.spec (Config.undrivenPorts s.draws) i) with
      pending := rest
      draws := s.draws + 1 }

/-- The host's move after an encode: the word on the output port, if there is one, is the next of the sequence (R33). -/
def State.collect (s : State) : State := { s with words := s.words ++ s.word.toList }

/-- The host takes up a sequence of retained instructions, with no word collected yet (R33, R119). The spec speaks of one
program only; that another one replaces what an earlier one left, its pending instructions and its collected words both
dropped, is the model's choice (log entry 26). ROMs generated before stay as they are (R40). -/
def State.load (s : State) (is : List Instr) : State := { s with pending := is, words := [] }

end Sys2Proof.Machine
end

