-- ==== Sys2Proof/Machine/Step.lean ====
section
/-! DEFINITION. One step: one encode (R119, R132). With an instruction pending, the host presents it, the block evaluates
its ports, and the host collects the word; with none, the block's output follows its present inputs (R28). -/

namespace Sys2Proof.Machine

/-- The block evaluates its present inputs: it encodes the instruction they carry, and refuses a `kind` code that names
none (R14, R23, R114). -/
def evaluate (s : State) : Host.Outcome State Fault Refusal :=
  match ofPorts Params.spec s.ports with
  | some i => exec i s
  | none => .refused (.kindNamesNoInstruction s.ports.kind)

/-- One step of the system. -/
def step (s : State) : Host.Outcome State Fault Refusal :=
  match s.pending with
  | [] => evaluate s
  | _ :: _ =>
    match evaluate s.present with
    | .next t => .next t.collect
    | .fault r => .fault r
    | .refused r => .refused r

/-- The instruction of a table word placed where step takes its next: at the head of the host's pending instructions. A
word that is no instruction's cannot be presented at all; the `kind` port then carries a code that names none, so that
step refuses (log entry 10). -/
def State.withFetchWord (s : State) (nbits w : Nat) : State :=
  match decodeTableWord nbits w with
  | some i => { s with pending := i :: s.pending }
  | none => { s.drive { s.ports with kind := 31 } with pending := [] }

end Sys2Proof.Machine
end

