-- ==== Sys2Proof/Machine/Rom.lean ====
section
/-! DEFINITION. The consumer of the words (R34 to R37): the ROM as a function of its address, the text the ROM generator
renders, and the generation of a ROM. A ROM is read only and word-addressed; nothing writes it after its text is made
(R32, R40). -/

namespace Sys2Proof.Machine

/-- The default word 0xD60003E0: a literal of the template that the encoder never produces (R34, R35). -/
def romDefault : Word := 0xD60003E0

/-- How many words a ROM can hold: one for each 16-bit address (R34, R37). -/
def romCapacity : Nat := 65536

/-- What the ROM of a word sequence reads at an address: word i at address i, the default word at every other address
(R34). A sequence of more than 65536 words has no ROM (R37, D19). -/
def romRead (ws : List Word) (address : BitVec 16) : Option Word :=
  if ws.length ≤ romCapacity then some (ws.getD address.toNat romDefault) else none

/-- A ROM's `out` at its present address (R34: `always @ (address)`). -/
def Rom.out (r : Rom) : Option Word := romRead r.contents r.address

/-- A word's 32 binary digits, bit 31 first (R31, R36). -/
def binaryDigits (w : Word) : Text :=
  (List.range 32).map fun j => if w.getLsbD (31 - j) then '1' else '0'

/-- A number in decimal with no leading zeros (R36, R117). -/
def decimal (n : Nat) : Text := Nat.toDigits 10 n

/-- What stands before a word line's address (R36). -/
def romLineHead : Text := "            16'd".toList

/-- What stands between a word line's address and its digits (R36). -/
def romLineMiddle : Text := ": out = 32'b".toList

/-- The end of a word line (R36). -/
def romLineEnd : Text := ";\n".toList

/-- Line i of the ROM text (R36). -/
def romLine (i : Nat) (w : Word) : Text :=
  romLineHead ++ decimal i ++ romLineMiddle ++ binaryDigits w ++ romLineEnd

/-- The word lines of the ROM text from address i on. -/
def romLines (i : Nat) : List Word → Text
  | [] => []
  | w :: ws => romLine i w ++ romLines (i + 1) ws

/-- The template before the word lines (R36). -/
def romHeader : Text :=
  "module rom_case(out, address);\n".toList ++
  "    output reg [31:0] out;\n".toList ++
  "    input [15:0] address;\n".toList ++
  "    always @ (address) begin\n".toList ++
  "        case (address)\n".toList

/-- The template after the word lines, kept verbatim: it ends with `end`, not `endmodule` (R36, conflict C4), and a line
feed (D25, log entry 12). -/
def romFooter : Text :=
  "            default: out = 32'hD60003E0; // BR XZR\n".toList ++
  "        endcase\n".toList ++
  "    end\n".toList ++
  "end\n".toList

/-- The ROM text of a word sequence (R36); none for more than 65536 words (R37). -/
def romText (ws : List Word) : Option Text :=
  if ws.length ≤ romCapacity then some (romHeader ++ romLines 0 ws ++ romFooter) else none

/-- The host has the ROM of the collected words generated (R119: render), its address input carrying a. None while an
instruction is pending, since partial ROMs "are never produced" (R117), and none for more than 65536 words (R37). The
ROMs generated before stay as they are (R40). -/
def State.generate (s : State) (a : BitVec 16) : Option State :=
  match s.pending, romText s.words with
  | [], some _ => some { s with roms := s.roms ++ [{ contents := s.words, address := a }] }
  | _, _ => none

/-- An input from outside the system: the address input of the n-th ROM is driven to a (R34). That nothing else drives it
is the model's choice (R129, N10, log entry 24). -/
def State.driveAddress (s : State) (n : Nat) (a : BitVec 16) : State :=
  { s with roms := s.roms.modify n fun r => { r with address := a } }

end Sys2Proof.Machine
end

