-- ==== Sys2Proof/Machine/Parser.lean ====
section
/-! DEFINITION. The host's line parser (R74 to R82) on the canonical spellings of R81, and those spellings themselves.
What the source leaves open (the immediates' containers, D22; whether lexical variants of those spellings are taken,
D20) is the argument H. -/

namespace Sys2Proof.Machine

/-- How a line is classified (the source's AsmLine). -/
inductive AsmLine where
  | instruction (i : Instr)
  | blank
  /-- Defined by the source and never produced (U2): the grammar has no comment syntax (R80). -/
  | comment
  | error
deriving DecidableEq, Repr

/-- A choice of the parser's open parameters: containers that hold every integer, and no spelling beyond the canonical
ones. It is a choice of the model for its own tests; no statement rests on it (log entry 11). -/
def strictHost : HostParams where
  immContainer := fun _ v => some v
  lexical := fun _ => false

/-- Literals that the container of an `Immediate(W)` holds, as far as the source tells its width and signedness: those of a
W-bit field read as signed where the source calls the field signed (R53, R56, R57) or shows it "holding −5" (R51, for 6
bits), else those that a W-bit field holds under either reading; and for 12 bits, "any 16-bit-range value" (R54), again
under either reading (log entry 11). -/
def surelyHeld (W : Nat) (v : Int) : Bool :=
  if W = 6 ∨ W = 9 ∨ W = 19 ∨ W = 26 then fitsSigned W v
  else if W = 12 then fitsUnsigned 15 v
  else fitsUnsigned (W - 1) v

/-- The value a literal is parsed into (R76): itself where the container surely holds it, else what H says (D22). -/
def containerValue (H : HostParams) (W : Nat) (v : Int) : Option Int :=
  if surelyHeld W v then some v else H.immContainer W v

/-- The text after a given prefix. -/
def eat : Text → Text → Option Text
  | [], t => some t
  | _ :: _, [] => none
  | p :: ps, c :: t => if p = c then eat ps t else none

/-- A register: `X` and a decimal 0 to 30 with no leading zeros, or `XZR` (R75). -/
def readReg (t : Text) : Option (Reg × Text) :=
  match eat "XZR".toList t with
  | some rest => some (.xzr, rest)
  | none => do
    let t ← eat "X".toList t
    let digits := t.takeWhile Char.isDigit
    let n := Nat.ofDigitChars 10 digits 0
    if h : n < 31 then
      if digits = decimal n then some (.x ⟨n, h⟩, t.dropWhile Char.isDigit) else none
    else none

/-- Decimal digits, at least one. -/
def readNat (t : Text) : Option (Nat × Text) :=
  match t.takeWhile Char.isDigit with
  | [] => none
  | d :: ds => some (Nat.ofDigitChars 10 (d :: ds) 0, t.dropWhile Char.isDigit)

/-- A literal: an optional leading `-`, then decimal digits (R76). -/
def readInt (t : Text) : Option (Int × Text) :=
  match eat "-".toList t with
  | some rest => (readNat rest).map fun (n, t) => (-(n : Int), t)
  | none => (readNat t).map fun (n, t) => ((n : Int), t)

/-- An immediate, "parsed directly into the target width's container with no range check against that width" (R76). -/
def readImmediate (H : HostParams) (W : Nat) (t : Text) : Option (Int × Text) := do
  let (v, t) ← readInt t
  let v ← containerValue H W v
  some (v, t)

/-- A condition's two-letter name (R49, R79). -/
def condName : Cond → Text
  | .eq => "EQ".toList
  | .ne => "NE".toList
  | .hs => "HS".toList
  | .lo => "LO".toList
  | .mi => "MI".toList
  | .pl => "PL".toList
  | .vs => "VS".toList
  | .vc => "VC".toList
  | .hi => "HI".toList
  | .ls => "LS".toList
  | .ge => "GE".toList
  | .lt => "LT".toList
  | .gt => "GT".toList
  | .le => "LE".toList
  | .al => "AL".toList
  | .nv => "NV".toList

/-- A two-letter condition code (R79). -/
def readCond (t : Text) : Option (Cond × Text) :=
  (allConds.find? fun c => condName c == t.take 2).map fun c => (c, t.drop 2)

/-- The shift suffix of MOVZ and MOVK with its shift; the empty suffix "defaults to shift-0" (R78). -/
def shiftOfSuffix (t : Text) : Option ShiftAmount :=
  if t = [] ∨ t = ", LSL 0".toList then some .lsl0
  else if t = ", LSL 16".toList then some .lsl16
  else if t = ", LSL 32".toList then some .lsl32
  else if t = ", LSL 48".toList then some .lsl48
  else none

/-- The instruction, where the line ends here. -/
def atEnd (i : Instr) (t : Text) : Option Instr := if t = [] then some i else none

/-- ` Xd, Xn, Xm` (R81). -/
def readRegs3 (mk : Reg → Reg → Reg → Instr) (t : Text) : Option Instr := do
  let t ← eat " ".toList t
  let (rd, t) ← readReg t
  let t ← eat ", ".toList t
  let (rn, t) ← readReg t
  let t ← eat ", ".toList t
  let (rm, t) ← readReg t
  atEnd (mk rd rn rm) t

/-- ` Xd, Xn, imm` with an immediate of width W (R81: the I and Shift layouts). -/
def readRegs2Imm (H : HostParams) (W : Nat) (mk : Reg → Reg → Int → Instr) (t : Text) : Option Instr := do
  let t ← eat " ".toList t
  let (rd, t) ← readReg t
  let t ← eat ", ".toList t
  let (rn, t) ← readReg t
  let t ← eat ", ".toList t
  let (v, t) ← readImmediate H W t
  atEnd (mk rd rn v) t

/-- ` Xt, [Xn, off]` (R77, R81). -/
def readMem (H : HostParams) (mk : Reg → Reg → Int → Instr) (t : Text) : Option Instr := do
  let t ← eat " ".toList t
  let (rt, t) ← readReg t
  let t ← eat ", [".toList t
  let (rn, t) ← readReg t
  let t ← eat ", ".toList t
  let (v, t) ← readImmediate H 9 t
  let t ← eat "]".toList t
  atEnd (mk rt rn v) t

/-- ` Xd, imm` with an optional `, LSL s` (R78, R81). -/
def readMove (H : HostParams) (mk : Reg → Int → ShiftAmount → Instr) (t : Text) : Option Instr := do
  let t ← eat " ".toList t
  let (rd, t) ← readReg t
  let t ← eat ", ".toList t
  let (v, t) ← readImmediate H 16 t
  let hw ← shiftOfSuffix t
  some (mk rd v hw)

/-- ` Xt, addr` (R81). -/
def readRegAddr (H : HostParams) (mk : Reg → Int → Instr) (t : Text) : Option Instr := do
  let t ← eat " ".toList t
  let (rt, t) ← readReg t
  let t ← eat ", ".toList t
  let (v, t) ← readImmediate H 19 t
  atEnd (mk rt v) t

/-- ` addr` (R81: BL, and B's unconditional form, a "bare signed 26-bit immediate", R79). -/
def readAddr (H : HostParams) (mk : Int → Instr) (t : Text) : Option Instr := do
  let t ← eat " ".toList t
  let (v, t) ← readImmediate H 26 t
  atEnd (mk v) t

/-- `.<cc> addr`: B's conditional form, a "2-letter condition code + signed 19-bit immediate" (R79). -/
def readCondAddr (H : HostParams) (t : Text) : Option Instr := do
  let t ← eat ".".toList t
  let (c, t) ← readCond t
  let t ← eat " ".toList t
  let (v, t) ← readImmediate H 19 t
  atEnd (.bCond c v) t

/-- ` Xn` (R81: BR). -/
def readReg1 (mk : Reg → Instr) (t : Text) : Option Instr := do
  let t ← eat " ".toList t
  let (rn, t) ← readReg t
  atEnd (mk rn) t

/-- The mnemonic B: "the conditional form first; on failure, fall back to the unconditional form" (R79). -/
def readB (H : HostParams) (t : Text) : Option Instr :=
  match readCondAddr H t with
  | some i => some i
  | none => readAddr H .b t

/-- The closed set of mnemonic tokens (29 tokens for 30 kinds, conflict C6), each with the grammar of its operands. -/
def grammars (H : HostParams) : List (Text × (Text → Option Instr)) :=
  [("ADD".toList, readRegs3 .add), ("ADDS".toList, readRegs3 .adds),
   ("SUB".toList, readRegs3 .sub), ("SUBS".toList, readRegs3 .subs),
   ("AND".toList, readRegs3 .and), ("ANDS".toList, readRegs3 .ands),
   ("ORR".toList, readRegs3 .orr), ("EOR".toList, readRegs3 .eor)] ++
  [("ADDI".toList, readRegs2Imm H 12 .addi), ("ADDIS".toList, readRegs2Imm H 12 .addis),
   ("SUBI".toList, readRegs2Imm H 12 .subi), ("SUBIS".toList, readRegs2Imm H 12 .subis),
   ("ANDI".toList, readRegs2Imm H 12 .andi), ("ANDIS".toList, readRegs2Imm H 12 .andis),
   ("ORRI".toList, readRegs2Imm H 12 .orri), ("EORI".toList, readRegs2Imm H 12 .eori)] ++
  [("STUR".toList, readMem H .stur), ("LDUR".toList, readMem H .ldur),
   ("STURB".toList, readMem H .sturb), ("LDURB".toList, readMem H .ldurb),
   ("MOVZ".toList, readMove H .movz), ("MOVK".toList, readMove H .movk),
   ("LSR".toList, readRegs2Imm H 6 .lsr), ("LSL".toList, readRegs2Imm H 6 .lsl),
   ("CBZ".toList, readRegAddr H .cbz), ("CBNZ".toList, readRegAddr H .cbnz),
   ("B".toList, readB H), ("BL".toList, readAddr H .bl), ("BR".toList, readReg1 .br)]

/-- The characters of a mnemonic token: all before the first space or `.` (R74). -/
def inToken (c : Char) : Bool := c != ' ' && c != '.'

/-- The mnemonic token of a line (R74). -/
def mnemonicToken (t : Text) : Text := t.takeWhile inToken

/-- The grammar of a token, by exact match against the closed set (R74). -/
def grammarOf (H : HostParams) (token : Text) : Option (Text → Option Instr) :=
  ((grammars H).find? fun g => g.1 == token).map fun g => g.2

/-- "A line of only whitespace is Blank" (R80). -/
def isBlank (t : Text) : Bool := t.all Char.isWhitespace

/-- The instruction a canonical line spells: what its token's grammar reads from the text after the token (R74). -/
def readLine (H : HostParams) (t : Text) : Option Instr :=
  match grammarOf H (mnemonicToken t) with
  | none => none
  | some g => g (t.dropWhile inToken)

/-- The words of a line, whitespace and commas between them dropped and each bracket a word of its own. The argument
`acc` is the word being read, last character first. -/
def lexWords (acc : Text) : Text → List Text
  | [] => if acc = [] then [] else [acc.reverse]
  | c :: t =>
    let done : List Text := if acc = [] then [] else [acc.reverse]
    if c.isWhitespace || c == ',' then done ++ lexWords [] t
    else if c == '[' || c == ']' then done ++ [c] :: lexWords [] t
    else lexWords (c :: acc) t

/-- The first word of a line in canonical letter case; B's suffixes CS and CC, which D9 leaves open, are ARMv8's other
names of HS and LO (log entry 4). -/
def canonicalToken (w : Text) : Text :=
  let u := w.map Char.toUpper
  if u = "B.CS".toList then "B.HS".toList else if u = "B.CC".toList then "B.LO".toList else u

/-- A later word in canonical spelling: upper case, `XZR` for `ZR`, a register's number without leading zeros. -/
def canonicalOperand (w : Text) : Text :=
  let u := w.map Char.toUpper
  match u with
  | 'X' :: ds =>
    if ds ≠ [] ∧ ds.all Char.isDigit then 'X' :: decimal (Nat.ofDigitChars 10 ds 0) else u
  | _ => if u = "ZR".toList then "XZR".toList else u

/-- The operand words after the word `before`, with the canonical separators between them: none inside a bracket's edge,
a space after `LSL`, else a comma and a space. -/
def joinOperands (before : Text) : List Text → Text
  | [] => []
  | w :: ws =>
    (if before = "[".toList ∨ w = "]".toList then []
      else if before = "LSL".toList then " ".toList else ", ".toList) ++ w ++ joinOperands w ws

/-- The canonical line that a line is a lexical variant of: the same words in upper case, with the canonical whitespace,
separators and register spellings (R81, D20). It adds, drops and reorders no word, so a line with a mnemonic outside the
closed set, an operand out of range or a comment becomes no instruction. -/
def canonicalLine (t : Text) : Text :=
  match lexWords [] t with
  | [] => []
  | [mn] => canonicalToken mn
  | mn :: w :: ws =>
    canonicalToken mn ++ " ".toList ++ canonicalOperand w ++
      joinOperands (canonicalOperand w) (ws.map canonicalOperand)

/-- The parser on one line (R74, R80): Blank; else the instruction the line spells canonically; else, where H takes
lexical variants like it (D20), the instruction of the canonical line it is a variant of; else Error. It looks at no
other line. -/
def parseLine (H : HostParams) (line : Text) : AsmLine :=
  if isBlank line then .blank
  else
    match readLine H line with
    | some i => .instruction i
    | none =>
      match (if H.lexical line then readLine H (canonicalLine line) else none) with
      | some i => .instruction i
      | none => .error

/-- A register's canonical spelling (R75). -/
def spellReg : Reg → Text
  | .x n => "X".toList ++ decimal n.val
  | .xzr => "XZR".toList

/-- A literal's canonical spelling (R76). -/
def spellInt (v : Int) : Text :=
  if v < 0 then "-".toList ++ decimal v.natAbs else decimal v.natAbs

/-- The shift suffix, absent for shift 0 (R78). -/
def spellShift : ShiftAmount → Text
  | .lsl0 => []
  | .lsl16 => ", LSL 16".toList
  | .lsl32 => ", LSL 32".toList
  | .lsl48 => ", LSL 48".toList

/-- `<mn> Xd, Xn, Xm`. -/
def spellRegs3 (mn : Text) (rd rn rm : Reg) : Text :=
  mn ++ " ".toList ++ spellReg rd ++ ", ".toList ++ spellReg rn ++ ", ".toList ++ spellReg rm

/-- `<mn> Xd, Xn, imm`. -/
def spellRegs2Imm (mn : Text) (rd rn : Reg) (v : Int) : Text :=
  mn ++ " ".toList ++ spellReg rd ++ ", ".toList ++ spellReg rn ++ ", ".toList ++ spellInt v

/-- `<mn> Xt, [Xn, off]`. -/
def spellMem (mn : Text) (rt rn : Reg) (off : Int) : Text :=
  mn ++ " ".toList ++ spellReg rt ++ ", [".toList ++ spellReg rn ++ ", ".toList ++ spellInt off ++ "]".toList

/-- `<mn> Xd, imm` or `<mn> Xd, imm, LSL s`. -/
def spellMove (mn : Text) (rd : Reg) (v : Int) (hw : ShiftAmount) : Text :=
  mn ++ " ".toList ++ spellReg rd ++ ", ".toList ++ spellInt v ++ spellShift hw

/-- `<mn> Xt, addr`. -/
def spellRegAddr (mn : Text) (rt : Reg) (addr : Int) : Text :=
  mn ++ " ".toList ++ spellReg rt ++ ", ".toList ++ spellInt addr

/-- The canonical spelling of an instruction (R81). -/
def spell : Instr → Text
  | .add rd rn rm => spellRegs3 "ADD".toList rd rn rm
  | .adds rd rn rm => spellRegs3 "ADDS".toList rd rn rm
  | .sub rd rn rm => spellRegs3 "SUB".toList rd rn rm
  | .subs rd rn rm => spellRegs3 "SUBS".toList rd rn rm
  | .and rd rn rm => spellRegs3 "AND".toList rd rn rm
  | .ands rd rn rm => spellRegs3 "ANDS".toList rd rn rm
  | .orr rd rn rm => spellRegs3 "ORR".toList rd rn rm
  | .eor rd rn rm => spellRegs3 "EOR".toList rd rn rm
  | .addi rd rn v => spellRegs2Imm "ADDI".toList rd rn v
  | .addis rd rn v => spellRegs2Imm "ADDIS".toList rd rn v
  | .subi rd rn v => spellRegs2Imm "SUBI".toList rd rn v
  | .subis rd rn v => spellRegs2Imm "SUBIS".toList rd rn v
  | .andi rd rn v => spellRegs2Imm "ANDI".toList rd rn v
  | .andis rd rn v => spellRegs2Imm "ANDIS".toList rd rn v
  | .orri rd rn v => spellRegs2Imm "ORRI".toList rd rn v
  | .eori rd rn v => spellRegs2Imm "EORI".toList rd rn v
  | .stur rt rn off => spellMem "STUR".toList rt rn off
  | .ldur rt rn off => spellMem "LDUR".toList rt rn off
  | .sturb rt rn off => spellMem "STURB".toList rt rn off
  | .ldurb rt rn off => spellMem "LDURB".toList rt rn off
  | .movz rd v hw => spellMove "MOVZ".toList rd v hw
  | .movk rd v hw => spellMove "MOVK".toList rd v hw
  | .lsr rd rn shamt => spellRegs2Imm "LSR".toList rd rn shamt
  | .lsl rd rn shamt => spellRegs2Imm "LSL".toList rd rn shamt
  | .cbz rt addr => spellRegAddr "CBZ".toList rt addr
  | .cbnz rt addr => spellRegAddr "CBNZ".toList rt addr
  | .bCond c addr => "B.".toList ++ condName c ++ " ".toList ++ spellInt addr
  | .b addr => "B ".toList ++ spellInt addr
  | .bl addr => "BL ".toList ++ spellInt addr
  | .br rn => "BR ".toList ++ spellReg rn

end Sys2Proof.Machine
end

