-- ==== Sys2Proof/Machine/Assembler.lean ====
section
/-! DEFINITION. The host's program assembler with its all-or-nothing error gate (R33, R115 to R118): every line is
classified first (R116); with any Error line the encoder is not called at all and the output is the error text (R117);
else the retained instructions are encoded in order and the words rendered as the ROM text. -/

namespace Sys2Proof.Machine

/-- Every line classified, before any decision (R116). -/
def classify (H : HostParams) (lines : List Text) : List AsmLine := lines.map (parseLine H)

/-- The 0-based indices of the Error lines from index n on, ascending (R115, R117). -/
def errorLines (n : Nat) : List AsmLine → List Nat
  | [] => []
  | .error :: ls => n :: errorLines (n + 1) ls
  | _ :: ls => errorLines (n + 1) ls

/-- The retained instructions, in source order; Blank and Comment lines are dropped (R33). -/
def retained : List AsmLine → List Instr
  | [] => []
  | .instruction i :: ls => i :: retained ls
  | _ :: ls => retained ls

/-- The structured result of the host's entry point (R118): a ROM text or an error list; and the refusal of a sequence
that has no ROM (R37, D19). -/
inductive AssemblyResult where
  | rom (text : Text)
  | errors (lines : List Nat)
  | refusedTooManyWords (n : Nat)
deriving DecidableEq, Repr

/-- The host's entry point on a program's lines. -/
def assembleWith (P : Params) (H : HostParams) (lines : List Text) : AssemblyResult :=
  match errorLines 0 (classify H lines) with
  | n :: ns => .errors (n :: ns)
  | [] =>
    let words := (retained (classify H lines)).map (encodeWith P)
    match romText words with
    | some text => .rom text
    | none => .refusedTooManyWords words.length

/-- The message for one Error line (R117). -/
def errorMessage (n : Nat) : Text := "Error on line ".toList ++ decimal n

/-- The literal external output (R117, R118): the ROM text, or the messages with no separator; none where the host
refuses. -/
def AssemblyResult.output : AssemblyResult → Option Text
  | .rom text => some text
  | .errors lines => some (lines.flatMap errorMessage)
  | .refusedTooManyWords _ => none

/-- The host taking up a program for the block: only with an empty error set (R117, R119). What an earlier program left is
dropped, and with an Error line nothing is taken up (log entry 26). -/
def State.loadProgram (s : State) (H : HostParams) (lines : List Text) : Option State :=
  match errorLines 0 (classify H lines) with
  | _ :: _ => none
  | [] => some (s.load (retained (classify H lines)))

end Sys2Proof.Machine
end

