-- ==== Sys2Proof/Machine/Flags.lean ====
section
/-! DEFINITION. The block has no flag and writes none (R26). What it does have is six kinds the source marks
"(+SetFlags)": each encodes like its base kind and differs only in its opcode literal (R26, R44, D5). -/

namespace Sys2Proof.Machine

/-- The instruction of the base kind with the same operands, for an instruction of a SetFlags kind. -/
def setFlagsBase : Instr → Option Instr
  | .adds rd rn rm => some (.add rd rn rm)
  | .subs rd rn rm => some (.sub rd rn rm)
  | .ands rd rn rm => some (.and rd rn rm)
  | .addis rd rn v => some (.addi rd rn v)
  | .subis rd rn v => some (.subi rd rn v)
  | .andis rd rn v => some (.andi rd rn v)
  | .add _ _ _ | .sub _ _ _ | .and _ _ _ | .orr _ _ _ | .eor _ _ _ => none
  | .addi _ _ _ | .subi _ _ _ | .andi _ _ _ | .orri _ _ _ | .eori _ _ _ => none
  | .stur _ _ _ | .ldur _ _ _ | .sturb _ _ _ | .ldurb _ _ _ => none
  | .movz _ _ _ | .movk _ _ _ | .lsr _ _ _ | .lsl _ _ _ => none
  | .cbz _ _ | .cbnz _ _ | .bCond _ _ | .b _ | .bl _ | .br _ => none

end Sys2Proof.Machine
end

