-- ==== Sys2Proof/Safety.lean ====
section
/-! DEFINITION. What counts as a safe state of the system, in the terms statements use. -/

namespace Sys2Proof.Machine

/-- The block's output port carries the encoding of its present inputs (R28), and no word where these name no
instruction (R114). -/
def Settled (s : State) : Prop := s.word = portWord Params.spec s.ports

/-- Every collected word is the encoding of some instruction (R72), so none is what an address without a word reads as,
the ROM's default word (R34, R35). -/
def WordsSpelled (s : State) : Prop := ∀ w ∈ s.words, ∃ i, decode w = .ok i

/-- What is collected and pending together fits the ROM (R37). -/
def Fits (s : State) : Prop := s.words.length + s.pending.length ≤ romCapacity

/-- Every generated ROM fits its address space (R37), and each of its words is the encoding of some instruction. -/
def RomsLegal (s : State) : Prop :=
  ∀ r ∈ s.roms, r.contents.length ≤ romCapacity ∧ ∀ w ∈ r.contents, ∃ i, decode w = .ok i

/-- The invariant of the system. -/
structure SysInv (s : State) : Prop where
  settled : Settled s
  spelled : WordsSpelled s
  fits : Fits s
  roms : RomsLegal s

/-- The input of the next encode names an instruction: one is pending, or the present `kind` code is below 30 (R23,
R130). -/
def LegalInput (s : State) : Prop := s.pending ≠ [] ∨ s.ports.kind.toNat < 30

end Sys2Proof.Machine
end

