-- ==== Sys2Proof/Certificates/Slice0/Obligations.lean ====
section
/-! DEFINITION. The statements for the provers. Each says which rules of spec/ it formalises; where it rests on a choice
of the spec marked as its own or of the model, its docstring names the log entry. -/

namespace Sys2Proof.Spec

/-- R layout, from bit 31 down: OPC, Rm, six zeros, Rn, Rd (R61, R43). -/
def layoutR (opc : BitVec 11) (rd rn rm : Reg) : Word := opc ++ reg5 rm ++ (0 : BitVec 6) ++ reg5 rn ++ reg5 rd

/-- I layout, from bit 31 down: OPC, imm, Rn, Rd (R62). -/
def layoutI (opc : BitVec 10) (rd rn : Reg) (v : Int) : Word := opc ++ imm 12 v ++ reg5 rn ++ reg5 rd

/-- D layout, from bit 31 down: OPC, off, two zeros, Rn, Rt (R63, R43). -/
def layoutD (opc : BitVec 11) (rt rn : Reg) (off : Int) : Word :=
  opc ++ imm 9 off ++ (0 : BitVec 2) ++ reg5 rn ++ reg5 rt

/-- IM layout, from bit 31 down: OPC, shift code, imm, Rd (R64). -/
def layoutIm (opc : BitVec 9) (rd : Reg) (v : Int) (hw : ShiftAmount) : Word :=
  opc ++ shift2 hw ++ imm 16 v ++ reg5 rd

/-- Shift layout, from bit 31 down: OPC, five zeros, shamt, Rn, Rd (R65, R43). -/
def layoutShift (opc : BitVec 11) (rd rn : Reg) (shamt : Int) : Word :=
  opc ++ (0 : BitVec 5) ++ imm 6 shamt ++ reg5 rn ++ reg5 rd

/-- CB layout, from bit 31 down: OPC, addr, Rt (R66). -/
def layoutCb (opc : BitVec 8) (rt : Reg) (addr : Int) : Word := opc ++ imm 19 addr ++ reg5 rt

/-- B.cond layout, from bit 31 down: OPC, addr, a zero, the condition's 4 bits (R67). -/
def layoutBCond (opc : BitVec 8) (cc : BitVec 4) (addr : Int) : Word := opc ++ imm 19 addr ++ (0 : BitVec 1) ++ cc

/-- B/BL layout, from bit 31 down: OPC, addr (R68). -/
def layoutB (opc : BitVec 6) (addr : Int) : Word := opc ++ imm 26 addr

/-- BR layout, from bit 31 down: OPC, sixteen zeros, Rn (R69 with `BR_RN_LSB = 0`). -/
def layoutBr (opc : BitVec 11) (rn : Reg) : Word := opc ++ (0 : BitVec 16) ++ reg5 rn

/-- Two words agree on every bit outside the n bits from bit lo up. -/
def AgreeOutside (lo n : Nat) (w w' : Word) : Prop := ∀ i, ¬ (lo ≤ i ∧ i < lo + n) → w.getLsbD i = w'.getLsbD i

/-- What the grammar of a line's token reads from the text after the token is i. -/
def ReadsAs (H : HostParams) (l : Text) (i : Instr) : Prop :=
  ∃ g, Sys2Proof.Machine.grammarOf H (Sys2Proof.Machine.mnemonicToken l) = some g ∧
    g (l.dropWhile Sys2Proof.Machine.inToken) = some i

/-- What a ROM that holds the words of some instructions reads at an address. -/
def romWordOf (is : List Instr) (a : BitVec 16) : Word :=
  match is[a.toNat]? with
  | some i => encode i
  | none => 0xD60003E0

/-- The instruction a line is classified as, if it is one. -/
def instrOfLine (H : HostParams) (l : Text) : Option Instr :=
  match Sys2Proof.Machine.parseLine H l with
  | .instruction i => some i
  | .blank => none
  | .comment => none
  | .error => none

end Sys2Proof.Spec

open Sys2Proof Sys2Proof.Machine Sys2Proof.Spec

/-- R48: reg5(Xn) = n, reg5(XZR) = 31, every register has its own code and every code is a register's. -/
def Obligations.RegisterCodesAreOrdinals : Prop :=
  (∀ n : Fin 31, (reg5 (.x n)).toNat = n.val) ∧ reg5 .xzr = 31 ∧
  (∀ r r', reg5 r = reg5 r' → r = r') ∧ ∀ c, ∃ r, reg5 r = c

/-- R47: for every codec, bit i of the result is `(ordinal_or_value >> i) & 1`, at every i below its width. -/
def Obligations.CodecBitsAreValueBits : Prop :=
  (∀ r i, i < 5 → (reg5 r).getLsbD i = decide ((regOrdinal r >>> i) % 2 = 1)) ∧
  (∀ (P : Params) c i, i < 5 → (cond5 P c).getLsbD i = decide (((P.condOrdinal c).toNat >>> i) % 2 = 1)) ∧
  (∀ s i, i < 2 → (shift2 s).getLsbD i = decide ((shiftOrdinal s >>> i) % 2 = 1)) ∧
  ∀ (W : Nat) (v : Int) (i : Nat), i < W → (imm W v).getLsbD i = decide ((v >>> i) % 2 = 1)

/-- R51, R59: two immediates have one code exactly when they differ by a multiple of 2^W, and the code is the residue. -/
def Obligations.ImmediateCodesAreResidues : Prop :=
  ∀ (W : Nat) (v v' : Int), ((imm W v).toNat : Int) = v % 2 ^ W ∧ (imm W v = imm W v' ↔ (2 ^ W : Int) ∣ v - v')

/-- R49, R50, R59: the codes of the shift amounts are the amounts over 16 (the listed order, log entry 5), those of the
conditions are distinct (their order is log entry 4), and bit 4 of the condition's field is 0. -/
def Obligations.ShiftAndConditionCodes : Prop :=
  (∀ s, (shift2 s).toNat * 16 = shiftPlaces s) ∧
  (∀ c c', cond4 Params.spec c = cond4 Params.spec c' → c = c') ∧
  ∀ (P : Params) c, (cond5 P c).getLsbD 4 = false

/-- R61 and R43: every R-format kind runs in every state and its word is the R layout of its opcode and operands;
nothing else changes. -/
def Obligations.RFormatWords : Prop :=
  ∀ (rd rn rm : Reg) (s : State),
    exec (.add rd rn rm) s = .next { s with word := some (layoutR (Params.spec.opc .add) rd rn rm) } ∧
    exec (.adds rd rn rm) s = .next { s with word := some (layoutR (Params.spec.opc .adds) rd rn rm) } ∧
    exec (.sub rd rn rm) s = .next { s with word := some (layoutR (Params.spec.opc .sub) rd rn rm) } ∧
    exec (.subs rd rn rm) s = .next { s with word := some (layoutR (Params.spec.opc .subs) rd rn rm) } ∧
    exec (.and rd rn rm) s = .next { s with word := some (layoutR (Params.spec.opc .and) rd rn rm) } ∧
    exec (.ands rd rn rm) s = .next { s with word := some (layoutR (Params.spec.opc .ands) rd rn rm) } ∧
    exec (.orr rd rn rm) s = .next { s with word := some (layoutR (Params.spec.opc .orr) rd rn rm) } ∧
    exec (.eor rd rn rm) s = .next { s with word := some (layoutR (Params.spec.opc .eor) rd rn rm) }

/-- R62: every I-format kind runs in every state, for every integer immediate, and its word is the I layout of its
opcode and operands; nothing else changes. -/
def Obligations.IFormatWords : Prop :=
  ∀ (rd rn : Reg) (v : Int) (s : State),
    exec (.addi rd rn v) s = .next { s with word := some (layoutI (Params.spec.opc .addi) rd rn v) } ∧
    exec (.addis rd rn v) s = .next { s with word := some (layoutI (Params.spec.opc .addis) rd rn v) } ∧
    exec (.subi rd rn v) s = .next { s with word := some (layoutI (Params.spec.opc .subi) rd rn v) } ∧
    exec (.subis rd rn v) s = .next { s with word := some (layoutI (Params.spec.opc .subis) rd rn v) } ∧
    exec (.andi rd rn v) s = .next { s with word := some (layoutI (Params.spec.opc .andi) rd rn v) } ∧
    exec (.andis rd rn v) s = .next { s with word := some (layoutI (Params.spec.opc .andis) rd rn v) } ∧
    exec (.orri rd rn v) s = .next { s with word := some (layoutI (Params.spec.opc .orri) rd rn v) } ∧
    exec (.eori rd rn v) s = .next { s with word := some (layoutI (Params.spec.opc .eori) rd rn v) }

/-- R63 and R43: the D-format kinds run in every state, for every integer offset; nothing but the word changes. -/
def Obligations.DFormatWords : Prop :=
  ∀ (rt rn : Reg) (off : Int) (s : State),
    exec (.stur rt rn off) s = .next { s with word := some (layoutD (Params.spec.opc .stur) rt rn off) } ∧
    exec (.ldur rt rn off) s = .next { s with word := some (layoutD (Params.spec.opc .ldur) rt rn off) } ∧
    exec (.sturb rt rn off) s = .next { s with word := some (layoutD (Params.spec.opc .sturb) rt rn off) } ∧
    exec (.ldurb rt rn off) s = .next { s with word := some (layoutD (Params.spec.opc .ldurb) rt rn off) }

/-- R64: the wide moves run in every state, for every integer immediate and shift; nothing but the word changes. -/
def Obligations.ImFormatWords : Prop :=
  ∀ (rd : Reg) (v : Int) (hw : ShiftAmount) (s : State),
    exec (.movz rd v hw) s = .next { s with word := some (layoutIm (Params.spec.opc .movz) rd v hw) } ∧
    exec (.movk rd v hw) s = .next { s with word := some (layoutIm (Params.spec.opc .movk) rd v hw) }

/-- R65 and R43: the shifts run in every state, for every integer amount; nothing but the word changes. -/
def Obligations.ShiftFormatWords : Prop :=
  ∀ (rd rn : Reg) (shamt : Int) (s : State),
    exec (.lsr rd rn shamt) s = .next { s with word := some (layoutShift (Params.spec.opc .lsr) rd rn shamt) } ∧
    exec (.lsl rd rn shamt) s = .next { s with word := some (layoutShift (Params.spec.opc .lsl) rd rn shamt) }

/-- R66: the compare-and-branch kinds run in every state, for every integer address; nothing but the word changes. -/
def Obligations.CbFormatWords : Prop :=
  ∀ (rt : Reg) (addr : Int) (s : State),
    exec (.cbz rt addr) s = .next { s with word := some (layoutCb (Params.spec.opc .cbz) rt addr) } ∧
    exec (.cbnz rt addr) s = .next { s with word := some (layoutCb (Params.spec.opc .cbnz) rt addr) }

/-- R67: the conditional branch runs in every state, for every condition and integer address; bit 4 is 0; nothing but
the word changes. -/
def Obligations.BCondWords : Prop :=
  ∀ (c : Cond) (addr : Int) (s : State),
    exec (.bCond c addr) s =
      .next { s with word := some (layoutBCond (Params.spec.opc .bCond) (cond4 Params.spec c) addr) }

/-- R68: the branches run in every state, for every integer address; nothing but the word changes. -/
def Obligations.BFormatWords : Prop :=
  ∀ (addr : Int) (s : State),
    exec (.b addr) s = .next { s with word := some (layoutB (Params.spec.opc .b) addr) } ∧
    exec (.bl addr) s = .next { s with word := some (layoutB (Params.spec.opc .bl) addr) }

/-- R69 and R112 under `BR_RN_LSB = 0` (the spec's own choice D7, log entry 3): BR runs in every state; nothing but the
word changes. The two readings of the parameter give one word only for X0, and the ROM's default word is the other
reading's BR XZR. -/
def Obligations.BrWordsAndTheOtherReading : Prop :=
  (∀ (rn : Reg) (s : State), exec (.br rn) s = .next { s with word := some (layoutBr (Params.spec.opc .br) rn) }) ∧
  (∀ (opc : BitVec 11) (rn : Reg), packBr .lsb0 opc rn = packBr .lsb5 opc rn ↔ rn = .x 0) ∧
  packBr .lsb5 (Params.spec.opc .br) .xzr = romDefault

/-- R45 (the spec's own choice D6, log entry 2, but for STUR, ADDI, B and BR): the thirty default opcode literals, in
the order of R44. -/
def Obligations.DefaultOpcodeTable : Prop :=
  Kind.all.map (fun k => (Params.spec.opc k).toNat) =
    [0x458, 0x558, 0x658, 0x758, 0x450, 0x750, 0x550, 0x650,
     0x244, 0x2C4, 0x344, 0x3C4, 0x248, 0x3C8, 0x2C8, 0x348] ++
    [0x7C0, 0x7C2, 0x1C0, 0x1C2, 0x1A5, 0x1E5, 0x69A, 0x69B, 0xB4, 0xB5, 0x54, 0x05, 0x25, 0x6B0]

/-- R35: the default ROM word's fields, its agreement with OPC(BR), the word of BR XZR, and that the encoder produces
the default word for no instruction (the last two under `BR_RN_LSB = 0`, log entry 3). -/
def Obligations.EncoderNeverMakesTheDefaultRomWord : Prop :=
  slice 21 11 romDefault = Params.spec.opc .br ∧ slice 5 5 romDefault = 31 ∧ slice 0 5 romDefault = 0 ∧
  (∀ s : State, exec (.br .xzr) s = .next { s with word := some 0xD600001F }) ∧
  ∀ (i : Instr) (s : State), exec i s ≠ .next { s with word := some romDefault }

/-- R60: in every layout, and for every opcode literal, changing one operand changes only the bits of that operand's
field. -/
def Obligations.FieldsAreIndependent : Prop :=
  (∀ opc rd rn rm x, AgreeOutside 0 5 (packR opc rd rn rm) (packR opc x rn rm) ∧
    AgreeOutside 5 5 (packR opc rd rn rm) (packR opc rd x rm) ∧
    AgreeOutside 16 5 (packR opc rd rn rm) (packR opc rd rn x)) ∧
  (∀ opc rd rn v x y, AgreeOutside 0 5 (packI opc rd rn v) (packI opc x rn v) ∧
    AgreeOutside 5 5 (packI opc rd rn v) (packI opc rd x v) ∧
    AgreeOutside 10 12 (packI opc rd rn v) (packI opc rd rn y)) ∧
  (∀ opc rt rn off x y, AgreeOutside 0 5 (packD opc rt rn off) (packD opc x rn off) ∧
    AgreeOutside 5 5 (packD opc rt rn off) (packD opc rt x off) ∧
    AgreeOutside 12 9 (packD opc rt rn off) (packD opc rt rn y)) ∧
  (∀ opc rd v hw x y z, AgreeOutside 0 5 (packIm opc rd v hw) (packIm opc x v hw) ∧
    AgreeOutside 5 16 (packIm opc rd v hw) (packIm opc rd y hw) ∧
    AgreeOutside 21 2 (packIm opc rd v hw) (packIm opc rd v z)) ∧
  (∀ opc rd rn v x y, AgreeOutside 0 5 (packShift opc rd rn v) (packShift opc x rn v) ∧
    AgreeOutside 5 5 (packShift opc rd rn v) (packShift opc rd x v) ∧
    AgreeOutside 10 6 (packShift opc rd rn v) (packShift opc rd rn y)) ∧
  (∀ opc rt v x y, AgreeOutside 0 5 (packCb opc rt v) (packCb opc x v) ∧
    AgreeOutside 5 19 (packCb opc rt v) (packCb opc rt y)) ∧
  (∀ opc cc v x y, AgreeOutside 0 4 (packBCond opc cc v) (packBCond opc x v) ∧
    AgreeOutside 5 19 (packBCond opc cc v) (packBCond opc cc y)) ∧
  (∀ opc v y, AgreeOutside 0 26 (packB opc v) (packB opc y)) ∧
  (∀ opc rn x, AgreeOutside 0 5 (packBr .lsb0 opc rn) (packBr .lsb0 opc x) ∧
    AgreeOutside 5 5 (packBr .lsb5 opc rn) (packBr .lsb5 opc x))

/-- R58: adding any multiple of 2^W to an immediate of width W changes nothing the block does. -/
def Obligations.TruncationLaw : Prop :=
  ∀ (i : Instr) (W : Nat) (j : Int) (s : State), i.kind.layout.immWidth = some W →
    exec (i.mapImm fun v => v + j * 2 ^ W) s = exec i s

/-- R113 and R16: the block raises no exception for any kind and any operand values, in any state; it writes none of its
inputs, and nothing the host holds. -/
def Obligations.EveryInstructionEncodesAndOnlyTheWordChanges : Prop :=
  ∀ (i : Instr) (s : State), ∃ t, exec i s = .next t ∧
    t.ports = s.ports ∧ t.pending = s.pending ∧ t.words = s.words ∧ t.roms = s.roms ∧
    t.draws = s.draws ∧ (∀ a, romRead t.words a = romRead s.words a) ∧ t.roms.map Rom.out = s.roms.map Rom.out

/-- R70, R73: the words of the machine's meanings, written from the rules' pseudocode, are those of the encoder written
from the opcode table's match and fields. -/
def Obligations.MeaningsAgreeWithTheTable : Prop :=
  ∀ (i : Instr) (s : State), exec i s = .next { s with word := some (matchOf Params.spec i.kind ||| operandBits Params.spec i) }

/-- R26: a SetFlags kind and its base kind, on the same operands, give words that differ in the opcode field only, each
field holding its own kind's literal; and neither writes anything but the word. -/
def Obligations.SetFlagsKindsDifferOnlyInOpcode : Prop :=
  ∀ (i j : Instr) (s : State), setFlagsBase i = some j →
    ∃ w w', exec i s = .next { s with word := some w } ∧ exec j s = .next { s with word := some w' } ∧
      i.kind.layout = j.kind.layout ∧
      AgreeOutside i.kind.layout.opcLsb i.kind.layout.opcWidth w w' ∧
      slice i.kind.layout.opcLsb i.kind.layout.opcWidth w = Params.spec.opc i.kind ∧
      slice j.kind.layout.opcLsb j.kind.layout.opcWidth w' = Params.spec.opc j.kind

/-- R45: whatever the opcode literals, every word carries its kind's literal in its layout's opcode field. -/
def Obligations.OpcodeFieldHoldsTheLiteral : Prop :=
  ∀ (P : Params) (i : Instr),
    slice i.kind.layout.opcLsb i.kind.layout.opcWidth (encodeWith P i) = P.opc i.kind

/-- R46 for the default parameters (D6, log entry 2): no two kinds' fixed bits agree on every bit fixed in both; and the
condition codes are distinct. -/
def Obligations.DefaultPatternsAreDisjoint : Prop :=
  Params.spec.patternsDisjoint = true ∧ Params.spec.condsDistinct = true

/-- R46, R72, R73: under any parameter values whose patterns are disjoint and whose condition codes are distinct,
decoding the word of a well-formed instruction gives the instruction back, every operand at every value its field reads
back. -/
def Obligations.DecodingAnEncodedInstruction : Prop :=
  ∀ (P : Params), P.patternsDisjoint = true → P.condsDistinct = true →
    ∀ i : Instr, i.wf = true → decodeWith P (encodeWith P i) = .ok i

/-- R72, R73: under any parameter values, an instruction that the decoder reads from a word is well formed and its
encoding is that word, bit for bit. -/
def Obligations.EncodingADecodedWord : Prop :=
  ∀ (P : Params) (w : Word) (i : Instr), decodeWith P w = .ok i → i.wf = true ∧ encodeWith P i = w

/-- R46 (for the default opcode literals only, log entry 2: R46 says the property is not a law of the source) and R59: the
block gives two instructions one word exactly when they are of one kind with one code in every field: their canonical
forms, each immediate replaced by what its field reads back (log entry 7), are equal. -/
def Obligations.WordsCollideExactlyOnEqualFields : Prop :=
  ∀ (i j : Instr) (s : State), exec i s = exec j s ↔ i.canonical = j.canonical

/-- R72: the decoder answers an instruction for exactly the words of the thirty patterns; every other word is reported
as spelling no instruction; and every word the block makes is one of them. -/
def Obligations.DecoderAcceptsExactlyTheSubset : Prop :=
  (∀ w, (∃ i, decode w = .ok i) ↔ ∃ k, w &&& maskOf Params.spec k = matchOf Params.spec k) ∧
  (∀ w, (∀ k, w &&& maskOf Params.spec k ≠ matchOf Params.spec k) → decode w = .error (.spellsNoInstruction w)) ∧
  ∀ (i : Instr) (s : State), ∃ t w, exec i s = .next t ∧ t.word = some w ∧ decode w = .ok i.canonical

/-- Words written out from the spec's encodings, one or more a family (R83, R91, R99, R103, R105, R108, R109, R110,
R112, and the default ROM word of R72): what each decodes to. They rest on the opcode literals (R45, D6, log entry 2), on
BR's register field (log entry 3), on the codes of the conditions (R49, log entry 4) and of the shift amounts (R50, log
entry 5), and on the signedness a decoder reads an immediate with (log entry 7). -/
def Obligations.WorkedWordsDecode : Prop :=
  decode 0b10001011000_00011_000000_00010_00001#32 = .ok (.add (.x 1) (.x 2) (.x 3)) ∧
  decode 0b1001000100_000001100100_00010_00001#32 = .ok (.addi (.x 1) (.x 2) 100) ∧
  decode 0b11111000000_000110010_00_00111_10111#32 = .ok (.stur (.x 23) (.x 7) 50) ∧
  decode 0b110100101_01_0001001000110100_00001#32 = .ok (.movz (.x 1) 4660 .lsl16) ∧
  decode 0b11010011010_00000_000100_00010_00001#32 = .ok (.lsr (.x 1) (.x 2) 4) ∧
  decode 0b10110101_1111111111111111101_00010#32 = .ok (.cbnz (.x 2) (-3)) ∧
  decode 0b01010100_0000000000000000100_0_1011#32 = .ok (.bCond .lt 4) ∧
  decode 0b000101_00000000000000000000000110#32 = .ok (.b 6) ∧
  decode 0b11010110000_0000000000000000_11110#32 = .ok (.br (.x 30)) ∧
  decode 0xD60003E0#32 = .error (.spellsNoInstruction 0xD60003E0#32)

/-- R31, R71: in either byte order, the bytes of an encoded instruction decode to it and leave the bytes after them
(log entry 13: the block forms no bytes; the order is a parameter). -/
def Obligations.BytesDecodeInEitherOrder : Prop :=
  ∀ (P : Params) (o : ByteOrder), P.patternsDisjoint = true → P.condsDistinct = true →
    ∀ (i : Instr) (rest : List Byte), i.wf = true →
      decodeBytes P o (bytesOfWord o (encodeWith P i) ++ rest) = .ok (i, rest)

/-- R22, R24: at the port level the word is the typed word, for every integer immediate and whatever the ports carry that
the kind does not name. -/
def Obligations.PortsGiveTheTypedWord : Prop :=
  ∀ (P : Params), P.condsDistinct = true →
    ∀ (u : Ports) (i : Instr), portWord P (portsOf P u i) = some (encodeWith P i)

/-- R23, R44 (the spec's own choice D3): the kind codes are the table's indices 0 to 29, and 30 and 31 name no kind. -/
def Obligations.KindCodesAreTableIndices : Prop :=
  (∀ n, (Kind.all[n]?).map kindCode = if n < 30 then some (BitVec.ofNat 5 n) else none) ∧
  (∀ k, kindOfCode (kindCode k) = some k) ∧ ∀ c : BitVec 5, kindOfCode c = none ↔ 30 ≤ c.toNat

/-- R23, R114, R130 (the spec's own choice D3): a step is refused exactly when nothing is pending and the `kind` port
carries 30 or 31; on every other input it goes on. -/
def Obligations.OnlyAnUnnamedKindIsRefused : Prop :=
  (∀ (s : State) r, step s = .refused r ↔
    s.pending = [] ∧ 30 ≤ s.ports.kind.toNat ∧ r = .kindNamesNoInstruction s.ports.kind) ∧
  ∀ s : State, LegalInput s → ∃ t, step s = .next t

/-- A step runs the instruction it takes: the one pending first, which the host presents and whose word it collects
(R119 says what the host does; that one step is one such encode is the model's, log entry 9); with none pending, the one
the ports carry (R14). The third clause is the model's choice alone (log entry 10; no rule speaks of it): placing the
bits of a table word puts the instruction they decode to at the head of what is pending, and step takes it. -/
def Obligations.StepRunsTheInstruction : Prop :=
  (∀ (s : State) i rest, s.pending = i :: rest →
    ∃ t, exec i s.present = .next t ∧ step s = .next t.collect) ∧
  (∀ (s : State) i, s.pending = [] → ofPorts Params.spec s.ports = some i → step s = exec i s) ∧
  ∀ (s : State) (w : Nat) (i : Instr), decodeTableWord 32 w = some i →
    (s.withFetchWord 32 w).pending = i :: s.pending ∧
    ∃ t, exec i (s.withFetchWord 32 w).present = .next t ∧ step (s.withFetchWord 32 w) = .next t.collect

/-- R33, with one encode a step (log entry 9): a step with an instruction pending collects its encoding as the next word of
the sequence, of which every address but that word's reads as before; the generated ROMs stay as they are. -/
def Obligations.PendingInstructionBecomesTheNextWord : Prop :=
  ∀ (s : State) i rest, s.pending = i :: rest →
    ∃ t, step s = .next t ∧ t.pending = rest ∧ t.word = some (encode i) ∧ t.words = s.words ++ [encode i] ∧
      t.roms = s.roms ∧
      (s.words.length < romCapacity → ∀ a : BitVec 16, a.toNat ≠ s.words.length →
        romRead t.words a = romRead s.words a)

/-- R14: the output is a function of the present inputs only: two states whose ports carry the same, whatever else they
hold, evaluate to the same word, and that word is the port-level word. -/
def Obligations.OutputDependsOnThePortsOnly : Prop :=
  ∀ s s' t t' : State, s.ports = s'.ports → evaluate s = .next t → evaluate s' = .next t' →
    t.word = t'.word ∧ portWord Params.spec s.ports = t.word ∧ t.word.isSome

/-- R28, R114: at every instant the output is the encoding of the present inputs. When the ports are driven to carry an
instruction, in any state, the output is its word at once, and with nothing pending an evaluation changes nothing more;
when they are driven with a `kind` code of 30 or 31, and only then, the output has no word, and with nothing pending a
step is refused. The host's presenting settles the output too. -/
def Obligations.OutputFollowsTheInputsAtOnce : Prop :=
  (∀ (s : State) (p : Ports) (i : Instr), ofPorts Params.spec p = some i →
    (s.drive p).word = some (encode i) ∧ Settled (s.drive p) ∧ exec i (s.drive p) = .next (s.drive p) ∧
    (s.pending = [] → step (s.drive p) = .next (s.drive p))) ∧
  (∀ (s : State) (p : Ports), Settled (s.drive p) ∧ ((s.drive p).word = none ↔ 30 ≤ p.kind.toNat) ∧
    (s.pending = [] → 30 ≤ p.kind.toNat → step (s.drive p) = .refused (.kindNamesNoInstruction p.kind))) ∧
  ∀ s : State, Settled s → Settled s.present

/-- R30: encoding the same input again changes nothing. -/
def Obligations.EncodingTwiceGivesTheSame : Prop :=
  ∀ s t : State, s.pending = [] → step s = .next t → step t = .next t

/-- R28, R37, R72: every step keeps the invariant: the output is settled, every collected word spells an instruction, the
words fit the ROM, and every generated ROM holds encodings and fits its address space. -/
def Obligations.StepKeepsTheInvariant : Prop := ∀ s t : State, SysInv s → step s = .next t → SysInv t

/-- The state after power-up meets the invariant (its inputs' values are the model's choice, log entry 8). -/
def Obligations.PowerUpMeetsTheInvariant : Prop := SysInv State.reset

/-- The model's choice, over R33's order: taken one by one (log entry 9), as many steps as instructions are pending encode
them all, from every state and in source order, and collect their words after those already collected; the model's own
counter of presentations (log entry 6) advances by their number. -/
def Obligations.PendingInstructionsAreAllEncodedInOrder : Prop :=
  ∀ s : State, ∃ t : State, Host.Core.run Sys2Proof.core s.pending.length s = .next t ∧
    t.pending = [] ∧ t.words = s.words ++ s.pending.map encode ∧ t.roms = s.roms ∧
    t.draws = s.draws + s.pending.length

/-- R34: for a sequence of n words, address i below n reads word i and every other address reads the default word. -/
def Obligations.RomReadsWordOrDefault : Prop :=
  ∀ (ws : List Word) (a : BitVec 16), ws.length ≤ 65536 →
    (∀ h : a.toNat < ws.length, romRead ws a = some ws[a.toNat]) ∧
    (ws.length ≤ a.toNat → romRead ws a = some 0xD60003E0)

/-- R37 (the spec's own choice D19): a sequence of more than 65536 words, and only such a one, has no ROM text and no
ROM. -/
def Obligations.OverlongSequenceHasNoRom : Prop :=
  ∀ ws : List Word, (romText ws = none ↔ 65536 < ws.length) ∧ ∀ a, romRead ws a = none ↔ 65536 < ws.length

/-- R31, R36: a word prints as its 32 bits from bit 31 down, so the print determines the word. -/
def Obligations.WordPrintsFromBit31Down : Prop :=
  ∀ w : Word, (binaryDigits w).length = 32 ∧
    (∀ j, j < 32 → (binaryDigits w)[j]? = some (if w.getLsbD (31 - j) then '1' else '0')) ∧
    ∀ w', binaryDigits w = binaryDigits w' → w = w'

/-- R36: the ROM text determines the word sequence: two sequences with one text are equal. -/
def Obligations.RomTextDeterminesTheWords : Prop :=
  ∀ (ws ws' : List Word) (t : Text), romText ws = some t → romText ws' = some t → ws = ws'

/-- R33: with no Error line, exactly the lines that are instructions are retained, in order, and the ROM text is that of
their encodings. -/
def Obligations.RetainedInstructionsBecomeTheRom : Prop :=
  ∀ (H : HostParams) (lines : List Text), (∀ l ∈ lines, parseLine H l ≠ .error) →
    retained (classify H lines) = lines.filterMap (instrOfLine H) ∧
    ((lines.filterMap (instrOfLine H)).length ≤ 65536 →
      ∃ text, romText ((lines.filterMap (instrOfLine H)).map encode) = some text ∧
        assembleWith Params.spec H lines = .rom text)

/-- R117: with any Error line the host does not take the program up and makes no ROM; the output is one message for each
Error line, in ascending order of 0-based index, with no separator. -/
def Obligations.AnyErrorLineGatesTheProgram : Prop :=
  ∀ (P : Params) (H : HostParams) (lines : List Text) (s : State), (∃ l ∈ lines, parseLine H l = .error) →
    s.loadProgram H lines = none ∧
    ∃ ns, assembleWith P H lines = .errors ns ∧ ns.Pairwise (· < ·) ∧
      (∀ n, n ∈ ns ↔ ∃ l, lines[n]? = some l ∧ parseLine H l = .error) ∧
      (assembleWith P H lines).output = some (ns.flatMap fun n => "Error on line ".toList ++ Nat.toDigits 10 n)

/-- R117 to R119, with one encode a step (log entry 9), the refusal of more than 65536 words being the consumer's (R37,
log entry 15) and a program replacing what an earlier one left (log entry 26): loading a program into the system and stepping until nothing is pending gives words whose ROM text is
the host's result, or whose count is the one the host refuses; a program that cannot be loaded is one the host reports
errors for. -/
def Obligations.MachineProducesTheAssembledRom : Prop :=
  ∀ (H : HostParams) (lines : List Text) (s : State),
    (∀ s₀, s.loadProgram H lines = some s₀ →
      ∃ t : State, Host.Core.run Sys2Proof.core s₀.pending.length s₀ = .next t ∧ t.pending = [] ∧
        assembleWith Params.spec H lines =
          match romText t.words with
          | some text => .rom text
          | none => .refusedTooManyWords t.words.length) ∧
    (s.loadProgram H lines = none ↔ ∃ n ns, assembleWith Params.spec H lines = .errors (n :: ns))

/-- R75 to R79, R81 (canonical spellings, the spec's own choice D20): the parser reads an instruction's canonical spelling
as that instruction, under any parameters, for every register, condition, shift and immediate that the immediate's
container holds: those that it surely holds (log entry 11), and those that the parameter lets it hold (D22). -/
def Obligations.CanonicalSpellingParsesBack : Prop :=
  ∀ (H : HostParams) (i : Instr),
    (∀ W v, i.kind.layout.immWidth = some W → i.imm? = some v →
      surelyHeld W v = true ∨ H.immContainer W v = some v) →
    parseLine H (spell i) = .instruction i

/-- R80, and U2 of the spec's list of unspecified behaviour: a line is Blank exactly when it is only whitespace (as
`Char.isWhitespace` has it, log entry 11), no line is ever a Comment, and any other line is the instruction its token's
grammar reads; or, where it reads none and the parameters take lexical variants like it (D20), the one that is read so
from the canonical line it is a variant of (log entry 11); or an Error. -/
def Obligations.LinesAreBlankInstructionOrError : Prop :=
  ∀ (H : HostParams) (l : Text),
    (parseLine H l = .blank ↔ ∀ c ∈ l, c.isWhitespace = true) ∧ parseLine H l ≠ .comment ∧
    (∀ i, parseLine H l = .instruction i ↔ (∃ c ∈ l, c.isWhitespace = false) ∧
      (ReadsAs H l i ∨ (∀ j, ¬ ReadsAs H l j) ∧ H.lexical l = true ∧ ReadsAs H (canonicalLine l) i)) ∧
    (parseLine H l = .error ↔ (∃ c ∈ l, c.isWhitespace = false) ∧ (∀ i, ¬ ReadsAs H l i) ∧
      (H.lexical l = true → ∀ i, ¬ ReadsAs H (canonicalLine l) i))

/-- R82, R125: a line whose mnemonic is not one of the 29 tokens, such as the pseudo-instructions and system
instructions the spec names, is an Error, whatever its operands and under any parameters. -/
def Obligations.PseudoAndSystemMnemonicsAreErrors : Prop :=
  ∀ (H : HostParams) (mn : String) (rest : Text),
    mn ∈ ["MOV", "CMP", "CMPI", "LDA", "SVC", "ERET", "MRS", "WFI"] →
    parseLine H mn.toList = .error ∧ parseLine H (mn.toList ++ ' ' :: rest) = .error

/-- R74: the token of a line ends before the first space or `.`, and is matched whole: B, BL and BR are three tokens with
three grammars, and B.cond's suffix is no part of its token. -/
def Obligations.TokensAreMatchedWhole : Prop :=
  (∀ (token rest : Text) (c : Char), (∀ d ∈ token, d ≠ ' ' ∧ d ≠ '.') → c = ' ' ∨ c = '.' →
    mnemonicToken (token ++ c :: rest) = token) ∧
  (∀ H token g, grammarOf H token = some g → (token, g) ∈ grammars H) ∧
  ∀ H, grammarOf H "B".toList = some (readB H) ∧ grammarOf H "BL".toList = some (readAddr H .bl) ∧
    grammarOf H "BR".toList = some (readReg1 .br)

/-- From R75 (the spec's own choice D20) and R80, on the lines of ADD and BR: under any parameters of the parser, X31 and
every register number above it is an Error as the register of BR and as each of the three registers of ADD; so are any
line that begins with `//` or `;`, and an ADD (of two registers) with a space and such a text after it. The registers of
other kinds, and comments after other kinds, are not in this statement. -/
def Obligations.AddAndBrRegistersAbove30AndCommentLinesAreErrors : Prop :=
  ∀ (H : HostParams) (n : Nat) (ra rb : Reg) (t : Text),
    (31 ≤ n →
      parseLine H ("BR X".toList ++ decimal n) = .error ∧
      parseLine H ("ADD X".toList ++ decimal n ++ ", ".toList ++ spellReg ra ++ ", ".toList ++ spellReg rb) = .error ∧
      parseLine H ("ADD ".toList ++ spellReg ra ++ ", X".toList ++ decimal n ++ ", ".toList ++ spellReg rb) = .error ∧
      parseLine H ("ADD ".toList ++ spellReg ra ++ ", ".toList ++ spellReg rb ++ ", X".toList ++ decimal n) = .error) ∧
    parseLine H ("//".toList ++ t) = .error ∧ parseLine H (';' :: t) = .error ∧
    parseLine H (spell (.add ra rb ra) ++ " //".toList ++ t) = .error ∧
    parseLine H (spell (.add ra rb ra) ++ " ;".toList ++ t) = .error

/-- The canonical line of log entry 11 is one for the canonical spellings of R81: each is a variant of itself. -/
def Obligations.CanonicalSpellingsAreTheirOwnVariants : Prop := ∀ i : Instr, canonicalLine (spell i) = spell i

/-- R34, R40: no operation of the block or the host changes the contents of a generated ROM: not a step, an encode, driving
the ports, presenting, collecting, or taking up instructions or a program. Driving a ROM's address (log entry 24) leaves
every ROM's contents, and generating adds one ROM, with the collected words, only with nothing pending (log entry 25) and
only of at most 65536 words (R37, the spec's own choice D19, log entry 15). -/
def Obligations.GeneratedRomsAreNeverChanged : Prop :=
  (∀ s t : State, step s = .next t → t.roms = s.roms) ∧
  (∀ (i : Instr) (s t : State), exec i s = .next t → t.roms = s.roms) ∧
  (∀ (s : State) (p : Ports) (is : List Instr), (s.drive p).roms = s.roms ∧ s.present.roms = s.roms ∧
    s.collect.roms = s.roms ∧ (s.load is).roms = s.roms) ∧
  (∀ (s t : State) (H : HostParams) (lines : List Text), s.loadProgram H lines = some t → t.roms = s.roms) ∧
  (∀ (s : State) (n : Nat) (a : BitVec 16),
    (s.driveAddress n a).roms.map Rom.contents = s.roms.map Rom.contents ∧
    ((s.driveAddress n a).roms[n]?).map Rom.address = (s.roms[n]?).map fun _ => a) ∧
  ∀ (s t : State) (a : BitVec 16), s.generate a = some t ↔
    s.pending = [] ∧ s.words.length ≤ 65536 ∧
      t = { s with roms := s.roms ++ [{ contents := s.words, address := a }] }

/-- R33, R34: the instructions the host takes up, once encoded (one a step, log entry 9), give a ROM that reads the
encoding of the i-th at address i and the default word at every other address; no ROM can be generated before the last of
them is encoded (log entry 25), nor of more than 65536 (R37, log entry 15). Taking them up drops what was pending and
collected before (log entry 26). -/
def Obligations.GeneratedRomReadsTheEncodings : Prop :=
  ∀ (s : State) (is : List Instr) (a : BitVec 16),
    (∀ k t, k < is.length → Host.Core.run Sys2Proof.core k (s.load is) = .next t → State.generate t a = none) ∧
    ∃ t : State, Host.Core.run Sys2Proof.core is.length (s.load is) = .next t ∧
      (65536 < is.length → t.generate a = none) ∧
      (is.length ≤ 65536 → ∃ u r, t.generate a = some u ∧ u.roms = s.roms ++ [r] ∧
        r.out = some (romWordOf is a) ∧ ∀ b : BitVec 16, ({ r with address := b } : Rom).out = some (romWordOf is b))

/-- R28, R37, R72: the moves that are no step keep the invariant too: driving the ports, taking up instructions that fit the
ROM, generating a ROM and driving its address. -/
def Obligations.EveryMoveKeepsTheInvariant : Prop :=
  ∀ s : State, SysInv s →
    (∀ p : Ports, SysInv (s.drive p)) ∧
    (∀ is : List Instr, is.length ≤ 65536 → SysInv (s.load is)) ∧
    (∀ (a : BitVec 16) (t : State), s.generate a = some t → SysInv t) ∧
    ∀ (n : Nat) (a : BitVec 16), SysInv (s.driveAddress n a)

/-- R71: every instruction is exactly 32 bits. The clauses say it of the model's own two readers: a table word (log entry
10) of another number of bits is none; and, the block forming no bytes (R31; log entry 13: a reader of bytes in a given
order is the model's choice), a run of bytes is decoded four at a time, and a shorter one is refused. -/
def Obligations.InstructionsAreExactly32Bits : Prop :=
  (∀ nbits w i, decodeTableWord nbits w = some i → nbits = 32 ∧ w < 2 ^ 32 ∧ decode (BitVec.ofNat 32 w) = .ok i) ∧
  (∀ (P : Params) (o : ByteOrder) (bs rest : List Byte) (i : Instr), decodeBytes P o bs = .ok (i, rest) →
    bs.drop 4 = rest ∧ bs.length = rest.length + 4) ∧
  ∀ (P : Params) (o : ByteOrder) (bs : List Byte), bs.length < 4 → decodeBytes P o bs = .error (.truncated bs.length)
end

