-- ==== Sys2Proof/Laws/Codecs.lean ====
section
/-! SUPPORT. The readings back of the operand codecs undo them. -/

namespace Sys2Proof

/-- Reading a register's code gives the register (R48). -/
@[simp] theorem regOfCode_reg5 (r : Reg) : regOfCode (reg5 r) = r := by
  cases r with
  | x n =>
    have h : (reg5 (.x n)).toNat = n.val := by
      simp [reg5, regOrdinal, BitVec.toNat_ofNat]; omega
    simp [regOfCode, h]
  | xzr => decide

/-- Every code is the code of the register read from it (R48). -/
@[simp] theorem reg5_regOfCode (c : BitVec 5) : reg5 (regOfCode c) = c := by
  unfold regOfCode
  split
  · simp [reg5, regOrdinal]
  · apply BitVec.eq_of_toNat_eq
    have h := c.isLt
    simp [reg5, regOrdinal]; omega

/-- Reading a shift amount's code gives the shift amount (R50). -/
@[simp] theorem shiftOfCode_shift2 (s : ShiftAmount) : shiftOfCode (shift2 s) = s := by cases s <;> decide

/-- Every code is the code of the shift amount read from it (R50). -/
@[simp] theorem shift2_shiftOfCode : ∀ c : BitVec 2, shift2 (shiftOfCode c) = c := by decide

/-- The 32-bit bus loses nothing of a narrower immediate (R24). -/
theorem imm_toInt_imm (W : Nat) (v : Int) (h : W ≤ 32) : imm W (imm 32 v).toInt = imm W v := by
  apply BitVec.eq_of_toInt_eq
  simp only [imm, BitVec.toInt_ofInt]
  exact Int.bmod_bmod_of_dvd (by exact_mod_cast Nat.pow_dvd_pow 2 h)

end Sys2Proof
end

