-- ==== Sys2Proof/Laws/Fields.lean ====
section
/-! SUPPORT. What writing one field of a word does, bit by bit (R11); what each layout's pseudocode gives as a whole
(R61 to R69), for every opcode literal; and the bits of the table encoder's parts. -/

namespace Sys2Proof.Machine

/-- A field write gives the field's bits the value's and leaves every other bit. -/
theorem getLsbD_setField {n : Nat} (word : Word) (lo : Nat) (v : BitVec n) (h : lo + n ≤ 32) (i : Nat) :
    (setField word lo v).getLsbD i = if lo ≤ i ∧ i < lo + n then v.getLsbD (i - lo) else word.getLsbD i := by
  unfold setField
  by_cases hi : i < 32
  · simp only [BitVec.getLsbD_or, BitVec.getLsbD_and, BitVec.getLsbD_not, BitVec.getLsbD_shiftLeft,
      BitVec.getLsbD_setWidth, BitVec.getLsbD_allOnes, hi, decide_true, Bool.true_and]
    by_cases h1 : i < lo
    · simp [h1, Nat.not_le.mpr h1]
    · by_cases h2 : i < lo + n
      · simp [h1, h2, Nat.not_lt.mp h1, show i - lo < 32 by omega, show i - lo < n by omega]
      · simp [h1, h2, BitVec.getLsbD_of_ge v (i - lo) (by omega), show ¬ (i - lo < n) by omega]
  · rw [BitVec.getLsbD_of_ge _ _ (Nat.not_lt.mp hi), BitVec.getLsbD_of_ge word _ (Nat.not_lt.mp hi),
      if_neg (by omega)]

/-- R61: OPC, Rm, six zeros, Rn, Rd from bit 31 down. -/
theorem packR_concat (opc : BitVec 11) (rd rn rm : Reg) :
    packR opc rd rn rm = opc ++ reg5 rm ++ (0 : BitVec 6) ++ reg5 rn ++ reg5 rd := by
  apply BitVec.eq_of_getLsbD_eq
  intro i hi
  unfold packR
  simp only [BitVec.getLsbD_append, Nat.sub_sub]
  repeat rw [getLsbD_setField _ _ _ (by omega)]
  split_ifs <;> first | rfl | omega | simp

/-- R62: OPC, the 12-bit immediate, Rn, Rd from bit 31 down. -/
theorem packI_concat (opc : BitVec 10) (rd rn : Reg) (v : Int) :
    packI opc rd rn v = opc ++ imm 12 v ++ reg5 rn ++ reg5 rd := by
  apply BitVec.eq_of_getLsbD_eq
  intro i hi
  unfold packI
  simp only [BitVec.getLsbD_append, Nat.sub_sub]
  repeat rw [getLsbD_setField _ _ _ (by omega)]
  split_ifs <;> first | rfl | omega

/-- R63: OPC, the 9-bit offset, two zeros, Rn, Rt from bit 31 down. -/
theorem packD_concat (opc : BitVec 11) (rt rn : Reg) (off : Int) :
    packD opc rt rn off = opc ++ imm 9 off ++ (0 : BitVec 2) ++ reg5 rn ++ reg5 rt := by
  apply BitVec.eq_of_getLsbD_eq
  intro i hi
  unfold packD
  simp only [BitVec.getLsbD_append, Nat.sub_sub]
  repeat rw [getLsbD_setField _ _ _ (by omega)]
  split_ifs <;> first | rfl | omega | simp

/-- R64: OPC, the shift code, the 16-bit immediate, Rd from bit 31 down. -/
theorem packIm_concat (opc : BitVec 9) (rd : Reg) (v : Int) (hw : ShiftAmount) :
    packIm opc rd v hw = opc ++ shift2 hw ++ imm 16 v ++ reg5 rd := by
  apply BitVec.eq_of_getLsbD_eq
  intro i hi
  unfold packIm
  simp only [BitVec.getLsbD_append, Nat.sub_sub]
  repeat rw [getLsbD_setField _ _ _ (by omega)]
  split_ifs <;> first | rfl | omega

/-- R65: OPC, five zeros, the 6-bit shift amount, Rn, Rd from bit 31 down. -/
theorem packShift_concat (opc : BitVec 11) (rd rn : Reg) (shamt : Int) :
    packShift opc rd rn shamt = opc ++ (0 : BitVec 5) ++ imm 6 shamt ++ reg5 rn ++ reg5 rd := by
  apply BitVec.eq_of_getLsbD_eq
  intro i hi
  unfold packShift
  simp only [BitVec.getLsbD_append, Nat.sub_sub]
  repeat rw [getLsbD_setField _ _ _ (by omega)]
  split_ifs <;> first | rfl | omega | simp

/-- R66: OPC, the 19-bit address, Rt from bit 31 down. -/
theorem packCb_concat (opc : BitVec 8) (rt : Reg) (addr : Int) :
    packCb opc rt addr = opc ++ imm 19 addr ++ reg5 rt := by
  apply BitVec.eq_of_getLsbD_eq
  intro i hi
  unfold packCb
  simp only [BitVec.getLsbD_append, Nat.sub_sub]
  repeat rw [getLsbD_setField _ _ _ (by omega)]
  split_ifs <;> first | rfl | omega

/-- R67: OPC, the 19-bit address, a zero, the condition from bit 31 down. -/
theorem packBCond_concat (opc : BitVec 8) (cc : BitVec 4) (addr : Int) :
    packBCond opc cc addr = opc ++ imm 19 addr ++ (0 : BitVec 1) ++ cc := by
  apply BitVec.eq_of_getLsbD_eq
  intro i hi
  unfold packBCond
  simp only [BitVec.getLsbD_append, Nat.sub_sub]
  repeat rw [getLsbD_setField _ _ _ (by omega)]
  split_ifs <;> first | rfl | omega | simp [BitVec.getLsbD_of_ge cc i (by omega)]

/-- R68: OPC, the 26-bit address from bit 31 down. -/
theorem packB_concat (opc : BitVec 6) (addr : Int) :
    packB opc addr = opc ++ imm 26 addr := by
  apply BitVec.eq_of_getLsbD_eq
  intro i hi
  unfold packB
  simp only [BitVec.getLsbD_append]
  repeat rw [getLsbD_setField _ _ _ (by omega)]
  split_ifs <;> first | rfl | omega

/-- R69 with BR_RN_LSB 0: OPC, sixteen zeros, Rn from bit 31 down. -/
theorem packBr_concat (opc : BitVec 11) (rn : Reg) :
    packBr .lsb0 opc rn = opc ++ (0 : BitVec 16) ++ reg5 rn := by
  apply BitVec.eq_of_getLsbD_eq
  intro i hi
  unfold packBr
  simp only [BitVec.getLsbD_append, Nat.sub_sub]
  repeat rw [getLsbD_setField _ _ _ (by omega)]
  split_ifs <;> first | rfl | omega | simp

/-- R69 with BR_RN_LSB 5: OPC, eleven zeros, Rn, five zeros from bit 31 down. -/
theorem packBr_at5_concat (opc : BitVec 11) (rn : Reg) :
    packBr .lsb5 opc rn = opc ++ (0 : BitVec 11) ++ reg5 rn ++ (0 : BitVec 5) := by
  apply BitVec.eq_of_getLsbD_eq
  intro i hi
  unfold packBr
  simp only [BitVec.getLsbD_append, Nat.sub_sub]
  repeat rw [getLsbD_setField _ _ _ (by omega)]
  split_ifs <;> first | rfl | omega | simp

end Sys2Proof.Machine

namespace Sys2Proof

/-- The bits of a field placed in an otherwise zero word. -/
theorem getLsbD_place {n : Nat} (lo : Nat) (v : BitVec n) (h : lo + n ≤ 32) (i : Nat) :
    (place lo v).getLsbD i = if lo ≤ i ∧ i < lo + n then v.getLsbD (i - lo) else false := by
  unfold place
  simp only [BitVec.getLsbD_shiftLeft, BitVec.getLsbD_setWidth]
  by_cases h1 : lo ≤ i
  · by_cases h2 : i < lo + n
    · simp [h1, h2, show i < 32 by omega, show i - lo < 32 by omega]
    · simp [h2, BitVec.getLsbD_of_ge v (i - lo) (by omega)]
  · simp [h1, show i < lo by omega]

/-- The match of a kind is its opcode literal, placed (R73). -/
theorem matchOf_eq_place (P : Params) (k : Kind) : matchOf P k = place k.layout.opcLsb (P.opc k) := rfl

/-- Each layout's mask, bit by bit (R73): the opcode field and the bits forced to 0. -/
theorem getLsbD_mask :
    (∀ i < 32, (0xFFE0FC00#32).getLsbD i = decide (21 ≤ i ∨ 10 ≤ i ∧ i < 16)) ∧
    (∀ i < 32, (0xFFC00000#32).getLsbD i = decide (22 ≤ i)) ∧
    (∀ i < 32, (0xFFE00C00#32).getLsbD i = decide (21 ≤ i ∨ 10 ≤ i ∧ i < 12)) ∧
    (∀ i < 32, (0xFF800000#32).getLsbD i = decide (23 ≤ i)) ∧
    (∀ i < 32, (0xFFFF0000#32).getLsbD i = decide (16 ≤ i)) ∧
    (∀ i < 32, (0xFF000000#32).getLsbD i = decide (24 ≤ i)) ∧
    (∀ i < 32, (0xFF000010#32).getLsbD i = decide (24 ≤ i ∨ i = 4)) ∧
    (∀ i < 32, (0xFC000000#32).getLsbD i = decide (26 ≤ i)) ∧
    (∀ i < 32, (0xFFFFFFE0#32).getLsbD i = decide (5 ≤ i)) ∧
    (∀ i < 32, (0xFFFFFC1F#32).getLsbD i = decide (10 ≤ i ∨ i < 5)) := by decide

/-- The fixed bits of a R layout's word are its opcode and zeros, whatever the operands (R43, R73). -/
theorem fixedBitsR (opc : BitVec 11) (rm rn rd : BitVec 5) :
    (place 21 opc ||| (place 16 rm ||| place 5 rn ||| place 0 rd)) &&& 0xFFE0FC00#32 = place 21 opc := by
  apply BitVec.eq_of_getLsbD_eq
  intro i hi
  rw [BitVec.getLsbD_and, getLsbD_mask.1 i hi]
  simp only [BitVec.getLsbD_or]
  repeat rw [getLsbD_place _ _ (by omega)]
  split_ifs <;> simp <;> omega

/-- The fixed bits of a I layout's word are its opcode and zeros, whatever the operands (R43, R73). -/
theorem fixedBitsI (opc : BitVec 10) (v : BitVec 12) (rn rd : BitVec 5) :
    (place 22 opc ||| (place 10 v ||| place 5 rn ||| place 0 rd)) &&& 0xFFC00000#32 = place 22 opc := by
  apply BitVec.eq_of_getLsbD_eq
  intro i hi
  rw [BitVec.getLsbD_and, getLsbD_mask.2.1 i hi]
  simp only [BitVec.getLsbD_or]
  repeat rw [getLsbD_place _ _ (by omega)]
  split_ifs <;> simp <;> omega

/-- The fixed bits of a D layout's word are its opcode and zeros, whatever the operands (R43, R73). -/
theorem fixedBitsD (opc : BitVec 11) (off : BitVec 9) (rn rt : BitVec 5) :
    (place 21 opc ||| (place 12 off ||| place 5 rn ||| place 0 rt)) &&& 0xFFE00C00#32 = place 21 opc := by
  apply BitVec.eq_of_getLsbD_eq
  intro i hi
  rw [BitVec.getLsbD_and, getLsbD_mask.2.2.1 i hi]
  simp only [BitVec.getLsbD_or]
  repeat rw [getLsbD_place _ _ (by omega)]
  split_ifs <;> simp <;> omega

/-- The fixed bits of a Im layout's word are its opcode and zeros, whatever the operands (R43, R73). -/
theorem fixedBitsIm (opc : BitVec 9) (hw : BitVec 2) (v : BitVec 16) (rd : BitVec 5) :
    (place 23 opc ||| (place 21 hw ||| place 5 v ||| place 0 rd)) &&& 0xFF800000#32 = place 23 opc := by
  apply BitVec.eq_of_getLsbD_eq
  intro i hi
  rw [BitVec.getLsbD_and, getLsbD_mask.2.2.2.1 i hi]
  simp only [BitVec.getLsbD_or]
  repeat rw [getLsbD_place _ _ (by omega)]
  split_ifs <;> simp <;> omega

/-- The fixed bits of a Shift layout's word are its opcode and zeros, whatever the operands (R43, R73). -/
theorem fixedBitsShift (opc : BitVec 11) (v : BitVec 6) (rn rd : BitVec 5) :
    (place 21 opc ||| (place 10 v ||| place 5 rn ||| place 0 rd)) &&& 0xFFFF0000#32 = place 21 opc := by
  apply BitVec.eq_of_getLsbD_eq
  intro i hi
  rw [BitVec.getLsbD_and, getLsbD_mask.2.2.2.2.1 i hi]
  simp only [BitVec.getLsbD_or]
  repeat rw [getLsbD_place _ _ (by omega)]
  split_ifs <;> simp <;> omega

/-- The fixed bits of a Cb layout's word are its opcode and zeros, whatever the operands (R43, R73). -/
theorem fixedBitsCb (opc : BitVec 8) (v : BitVec 19) (rt : BitVec 5) :
    (place 24 opc ||| (place 5 v ||| place 0 rt)) &&& 0xFF000000#32 = place 24 opc := by
  apply BitVec.eq_of_getLsbD_eq
  intro i hi
  rw [BitVec.getLsbD_and, getLsbD_mask.2.2.2.2.2.1 i hi]
  simp only [BitVec.getLsbD_or]
  repeat rw [getLsbD_place _ _ (by omega)]
  split_ifs <;> simp <;> omega

/-- The fixed bits of a BCond layout's word are its opcode and zeros, whatever the operands (R43, R73). -/
theorem fixedBitsBCond (opc : BitVec 8) (v : BitVec 19) (cc : BitVec 4) :
    (place 24 opc ||| (place 5 v ||| place 0 (cc.setWidth 5))) &&& 0xFF000010#32 = place 24 opc := by
  apply BitVec.eq_of_getLsbD_eq
  intro i hi
  rw [BitVec.getLsbD_and, getLsbD_mask.2.2.2.2.2.2.1 i hi]
  simp only [BitVec.getLsbD_or]
  repeat rw [getLsbD_place _ _ (by omega)]
  split_ifs <;> simp <;> grind

/-- The fixed bits of a B layout's word are its opcode and zeros, whatever the operands (R43, R73). -/
theorem fixedBitsB (opc : BitVec 6) (v : BitVec 26) :
    (place 26 opc ||| (place 0 v)) &&& 0xFC000000#32 = place 26 opc := by
  apply BitVec.eq_of_getLsbD_eq
  intro i hi
  rw [BitVec.getLsbD_and, getLsbD_mask.2.2.2.2.2.2.2.1 i hi]
  simp only [BitVec.getLsbD_or]
  repeat rw [getLsbD_place _ _ (by omega)]
  split_ifs <;> simp <;> omega

/-- The fixed bits of a Br layout's word are its opcode and zeros, whatever the operands (R43, R73). -/
theorem fixedBitsBr (opc : BitVec 11) (rn : BitVec 5) :
    (place 21 opc ||| (place 0 rn)) &&& 0xFFFFFFE0#32 = place 21 opc := by
  apply BitVec.eq_of_getLsbD_eq
  intro i hi
  rw [BitVec.getLsbD_and, getLsbD_mask.2.2.2.2.2.2.2.2.1 i hi]
  simp only [BitVec.getLsbD_or]
  repeat rw [getLsbD_place _ _ (by omega)]
  split_ifs <;> simp <;> omega

/-- The fixed bits of a BrAt5 layout's word are its opcode and zeros, whatever the operands (R43, R73). -/
theorem fixedBitsBrAt5 (opc : BitVec 11) (rn : BitVec 5) :
    (place 21 opc ||| (place 5 rn)) &&& 0xFFFFFC1F#32 = place 21 opc := by
  apply BitVec.eq_of_getLsbD_eq
  intro i hi
  rw [BitVec.getLsbD_and, getLsbD_mask.2.2.2.2.2.2.2.2.2 i hi]
  simp only [BitVec.getLsbD_or]
  repeat rw [getLsbD_place _ _ (by omega)]
  split_ifs <;> simp <;> omega

end Sys2Proof
end

