-- ==== Sys2Proof/Laws/PerInstr.lean ====
section
/-! SUPPORT. Statements for all instructions, one lemma per constructor. -/

namespace Sys2Proof.Laws.FixedBits

/-- Under any parameter values, the instruction's word matches the pattern of its kind (R73). -/
def Statement (i : Instr) : Prop := ∀ P : Params, encodeWith P i &&& maskOf P i.kind = matchOf P i.kind

theorem add (rd rn rm : Reg) : Statement (.add rd rn rm) := fun _ => fixedBitsR _ _ _ _
theorem adds (rd rn rm : Reg) : Statement (.adds rd rn rm) := fun _ => fixedBitsR _ _ _ _
theorem sub (rd rn rm : Reg) : Statement (.sub rd rn rm) := fun _ => fixedBitsR _ _ _ _
theorem subs (rd rn rm : Reg) : Statement (.subs rd rn rm) := fun _ => fixedBitsR _ _ _ _
theorem and (rd rn rm : Reg) : Statement (.and rd rn rm) := fun _ => fixedBitsR _ _ _ _
theorem ands (rd rn rm : Reg) : Statement (.ands rd rn rm) := fun _ => fixedBitsR _ _ _ _
theorem orr (rd rn rm : Reg) : Statement (.orr rd rn rm) := fun _ => fixedBitsR _ _ _ _
theorem eor (rd rn rm : Reg) : Statement (.eor rd rn rm) := fun _ => fixedBitsR _ _ _ _

theorem addi (rd rn : Reg) (v : Int) : Statement (.addi rd rn v) := fun _ => fixedBitsI _ _ _ _
theorem addis (rd rn : Reg) (v : Int) : Statement (.addis rd rn v) := fun _ => fixedBitsI _ _ _ _
theorem subi (rd rn : Reg) (v : Int) : Statement (.subi rd rn v) := fun _ => fixedBitsI _ _ _ _
theorem subis (rd rn : Reg) (v : Int) : Statement (.subis rd rn v) := fun _ => fixedBitsI _ _ _ _
theorem andi (rd rn : Reg) (v : Int) : Statement (.andi rd rn v) := fun _ => fixedBitsI _ _ _ _
theorem andis (rd rn : Reg) (v : Int) : Statement (.andis rd rn v) := fun _ => fixedBitsI _ _ _ _
theorem orri (rd rn : Reg) (v : Int) : Statement (.orri rd rn v) := fun _ => fixedBitsI _ _ _ _
theorem eori (rd rn : Reg) (v : Int) : Statement (.eori rd rn v) := fun _ => fixedBitsI _ _ _ _

theorem stur (rt rn : Reg) (off : Int) : Statement (.stur rt rn off) := fun _ => fixedBitsD _ _ _ _
theorem ldur (rt rn : Reg) (off : Int) : Statement (.ldur rt rn off) := fun _ => fixedBitsD _ _ _ _
theorem sturb (rt rn : Reg) (off : Int) : Statement (.sturb rt rn off) := fun _ => fixedBitsD _ _ _ _
theorem ldurb (rt rn : Reg) (off : Int) : Statement (.ldurb rt rn off) := fun _ => fixedBitsD _ _ _ _

theorem movz (rd : Reg) (v : Int) (hw : ShiftAmount) : Statement (.movz rd v hw) := fun _ => fixedBitsIm _ _ _ _
theorem movk (rd : Reg) (v : Int) (hw : ShiftAmount) : Statement (.movk rd v hw) := fun _ => fixedBitsIm _ _ _ _

theorem lsr (rd rn : Reg) (shamt : Int) : Statement (.lsr rd rn shamt) := fun _ => fixedBitsShift _ _ _ _
theorem lsl (rd rn : Reg) (shamt : Int) : Statement (.lsl rd rn shamt) := fun _ => fixedBitsShift _ _ _ _

theorem cbz (rt : Reg) (addr : Int) : Statement (.cbz rt addr) := fun _ => fixedBitsCb _ _ _
theorem cbnz (rt : Reg) (addr : Int) : Statement (.cbnz rt addr) := fun _ => fixedBitsCb _ _ _

theorem bCond (c : Cond) (addr : Int) : Statement (.bCond c addr) := fun _ => fixedBitsBCond _ _ _

theorem b (addr : Int) : Statement (.b addr) := fun _ => fixedBitsB _ _
theorem bl (addr : Int) : Statement (.bl addr) := fun _ => fixedBitsB _ _

theorem br (rn : Reg) : Statement (.br rn) := fun P => by
  cases h : P.brRnLsb <;> simp only [encodeWith, matchOf_eq_place, maskOf, Instr.kind, Kind.layout, Layout.mask,
    Layout.opcLsb, operandBits, h]
  · exact fixedBitsBr _ _
  · exact fixedBitsBrAt5 _ _

end Sys2Proof.Laws.FixedBits
end

