-- ==== Sys2Proof/Laws/State.lean ====
section
/-! SUPPORT. One lemma per field per update of the state, true by rfl, so that no later proof unfolds a record update;
and what the host's presenting does in its two cases. -/

namespace Sys2Proof.Machine

variable (s : State) (w : Word) (p : Ports) (is : List Instr) (n : Nat) (a : BitVec 16)

@[simp] theorem State.setWord_ports : (s.setWord w).ports = s.ports := rfl
@[simp] theorem State.setWord_word : (s.setWord w).word = some w := rfl
@[simp] theorem State.setWord_pending : (s.setWord w).pending = s.pending := rfl
@[simp] theorem State.setWord_words : (s.setWord w).words = s.words := rfl
@[simp] theorem State.setWord_roms : (s.setWord w).roms = s.roms := rfl
@[simp] theorem State.setWord_draws : (s.setWord w).draws = s.draws := rfl

@[simp] theorem State.collect_ports : s.collect.ports = s.ports := rfl
@[simp] theorem State.collect_word : s.collect.word = s.word := rfl
@[simp] theorem State.collect_pending : s.collect.pending = s.pending := rfl
@[simp] theorem State.collect_words : s.collect.words = s.words ++ s.word.toList := rfl
@[simp] theorem State.collect_roms : s.collect.roms = s.roms := rfl
@[simp] theorem State.collect_draws : s.collect.draws = s.draws := rfl

@[simp] theorem State.drive_ports : (s.drive p).ports = p := rfl
@[simp] theorem State.drive_word : (s.drive p).word = portWord Params.spec p := rfl
@[simp] theorem State.drive_pending : (s.drive p).pending = s.pending := rfl
@[simp] theorem State.drive_words : (s.drive p).words = s.words := rfl
@[simp] theorem State.drive_roms : (s.drive p).roms = s.roms := rfl
@[simp] theorem State.drive_draws : (s.drive p).draws = s.draws := rfl

@[simp] theorem State.load_ports : (s.load is).ports = s.ports := rfl
@[simp] theorem State.load_word : (s.load is).word = s.word := rfl
@[simp] theorem State.load_pending : (s.load is).pending = is := rfl
@[simp] theorem State.load_words : (s.load is).words = [] := rfl
@[simp] theorem State.load_roms : (s.load is).roms = s.roms := rfl
@[simp] theorem State.load_draws : (s.load is).draws = s.draws := rfl

@[simp] theorem State.driveAddress_ports : (s.driveAddress n a).ports = s.ports := rfl
@[simp] theorem State.driveAddress_word : (s.driveAddress n a).word = s.word := rfl
@[simp] theorem State.driveAddress_pending : (s.driveAddress n a).pending = s.pending := rfl
@[simp] theorem State.driveAddress_words : (s.driveAddress n a).words = s.words := rfl
@[simp] theorem State.driveAddress_draws : (s.driveAddress n a).draws = s.draws := rfl

@[simp] theorem State.present_words : s.present.words = s.words := by
  unfold State.present; split <;> rfl
@[simp] theorem State.present_roms : s.present.roms = s.roms := by
  unfold State.present; split <;> rfl

/-- With nothing pending, presenting changes nothing. -/
theorem State.present_of_nil {s : State} (h : s.pending = []) : s.present = s := by
  unfold State.present; rw [h]

/-- With i pending, presenting puts i on the ports and takes it off the pending list. -/
theorem State.present_of_cons {s : State} {i : Instr} {rest : List Instr} (h : s.pending = i :: rest) :
    s.present = { s.drive (portsOf Params.spec (Config.undrivenPorts s.draws) i) with
      pending := rest
      draws := s.draws + 1 } := by
  unfold State.present; rw [h]

/-- Generating a ROM succeeds only with nothing pending and a text to make, and then adds one ROM and changes nothing
else. -/
theorem State.generate_cases {s t : State} {a : BitVec 16} (h : s.generate a = some t) :
    s.pending = [] ∧ s.words.length ≤ romCapacity ∧
      t = { s with roms := s.roms ++ [{ contents := s.words, address := a }] } := by
  unfold State.generate at h
  split at h
  · rename_i text hp ht
    refine ⟨hp, ?_, (Option.some.inj h).symm⟩
    by_contra hl
    rw [romText, if_neg hl] at ht
    cases ht
  · cases h

/-- With nothing pending and words that fit, generating a ROM succeeds. -/
theorem State.generate_of_nil {s : State} (a : BitVec 16) (hp : s.pending = [])
    (hl : s.words.length ≤ romCapacity) :
    s.generate a = some { s with roms := s.roms ++ [{ contents := s.words, address := a }] } := by
  unfold State.generate
  rw [hp, romText, if_pos hl]

end Sys2Proof.Machine
end

