-- ==== Sys2Proof/Laws/Step.lean ====
section
/-! SUPPORT. What the shared operations and a step can do, said once; and that collecting a word keeps the collected words
instructions' encodings. -/

namespace Sys2Proof.Machine

/-- The one effect of the block: a next state with another word. -/
theorem emit_eq_next (w : Word) (s : State) : emit w s = .next (s.setWord w) := rfl

/-- Driving the output port twice is driving it the second time. -/
@[simp] theorem State.setWord_setWord (s : State) (w w' : Word) : (s.setWord w).setWord w' = s.setWord w' := rfl

/-- An evaluation that goes on runs the instruction the ports carry. -/
theorem evaluate_next_cases {s t : State} (h : evaluate s = .next t) :
    ∃ i, ofPorts Params.spec s.ports = some i ∧ exec i s = .next t := by
  unfold evaluate at h
  split at h
  · exact ⟨_, ‹_›, h⟩
  · cases h

/-- A step that goes on evaluates the present ports, or presents an instruction, evaluates and collects. -/
theorem step_next_cases {s t : State} (h : step s = .next t) :
    (s.pending = [] ∧ evaluate s = .next t) ∨
    ∃ i rest u, s.pending = i :: rest ∧ evaluate s.present = .next u ∧ t = u.collect := by
  unfold step at h
  split at h
  · exact .inl ⟨‹_›, h⟩
  · rename_i i rest hp
    refine .inr ⟨i, rest, ?_⟩
    cases hu : evaluate s.present with
    | next u => rw [hu] at h; exact ⟨u, hp, rfl, by simpa using h.symm⟩
    | fault r => exact nomatch r
    | refused r => rw [hu] at h; cases h

/-- With none pending, a step is an evaluation of the present ports. -/
theorem step_of_nil {s : State} (h : s.pending = []) : step s = evaluate s := by
  unfold step; rw [h]

/-- With one pending, a step presents it, evaluates and collects. -/
theorem step_of_cons {s u : State} {i : Instr} {rest : List Instr} (h : s.pending = i :: rest)
    (hu : evaluate s.present = .next u) : step s = .next u.collect := by
  unfold step; rw [h]; simp only [hu]

/-- The memory law of the collected words: collecting a word that spells an instruction keeps them all so. -/
theorem wordsSpelled_collect {s : State} (h : WordsSpelled s) (hw : ∀ w, s.word = some w → ∃ i, decode w = .ok i) :
    WordsSpelled s.collect := by
  intro w hm
  rw [State.collect_words, List.mem_append, Option.mem_toList] at hm
  obtain hm | hm := hm
  · exact h w hm
  · exact hw w hm

/-- Nothing collected, nothing to say: the reset state and a freshly loaded one. -/
theorem wordsSpelled_of_nil {s : State} (h : s.words = []) : WordsSpelled s := by
  intro w hm; rw [h] at hm; cases hm

/-- Driving the ports leaves the output settled, whatever they carry (R28). -/
theorem settled_drive (s : State) (p : Ports) : Settled (s.drive p) := rfl

/-- Driving a ROM's address changes no ROM's contents (R34, R40). -/
theorem State.driveAddress_contents (s : State) (n : Nat) (a : BitVec 16) :
    (s.driveAddress n a).roms.map Rom.contents = s.roms.map Rom.contents := by
  simp only [State.driveAddress]
  apply List.ext_getElem?
  intro k
  simp only [List.getElem?_map, List.getElem?_modify]
  cases s.roms[k]? with
  | none => rfl
  | some r => by_cases h : n = k <;> simp [h]

end Sys2Proof.Machine
end

