-- ==== Sys2Proof/Tests/Slice0.lean ====
section
/-! SUPPORT. The model's own tests. Expected words are the spec's: the examples of R83 to R112 (exec), words written out
bit by bit from the layouts R61 to R69 and the opcode table R45 (decode), and the vectors of 95_test_vectors.md where
named. Also an ill-formed term for each well-formedness check, and a witness for the hypotheses of each statement. -/

namespace Sys2Proof.Tests
open Sys2Proof.Machine

/-- The word on the output port after an instruction, from the reset state. -/
def wordAfter (i : Instr) : Option Word :=
  match exec i State.reset with
  | .next t => t.word
  | .fault _ => none
  | .refused _ => none

/-- The state after a step, where it goes on. -/
def after (s : State) : Option State :=
  match step s with
  | .next t => some t
  | .fault _ => none
  | .refused _ => none

/-- The state with some instructions pending and everything else as at reset. -/
def withPending (is : List Instr) : State := State.reset.load is

/-! ### The word of each kind: the example of its rule -/

/-- R83: `ADD X1, X2, X3`. -/
theorem test_add_word : wordAfter (.add (.x 1) (.x 2) (.x 3)) = some 0x8B030041 := by decide
/-- R84: `ADDS X9, X10, X11`. -/
theorem test_adds_word : wordAfter (.adds (.x 9) (.x 10) (.x 11)) = some 0xAB0B0149 := by decide
/-- R85: `SUB X19, X20, X21`. -/
theorem test_sub_word : wordAfter (.sub (.x 19) (.x 20) (.x 21)) = some 0xCB150293 := by decide
/-- R86: `SUBS X0, X0, X0`. -/
theorem test_subs_word : wordAfter (.subs (.x 0) (.x 0) (.x 0)) = some 0xEB000000 := by decide
/-- R87: `AND X5, X6, X7`. -/
theorem test_and_word : wordAfter (.and (.x 5) (.x 6) (.x 7)) = some 0x8A0700C5 := by decide
/-- R88: `ANDS X28, X29, X30`. -/
theorem test_ands_word : wordAfter (.ands (.x 28) (.x 29) (.x 30)) = some 0xEA1E03BC := by decide
/-- R89: `ORR X12, X13, X14`. -/
theorem test_orr_word : wordAfter (.orr (.x 12) (.x 13) (.x 14)) = some 0xAA0E01AC := by decide
/-- R90: `EOR X15, X16, X17`. -/
theorem test_eor_word : wordAfter (.eor (.x 15) (.x 16) (.x 17)) = some 0xCA11020F := by decide
/-- R91: `ADDI X1, X2, 100`. -/
theorem test_addi_word : wordAfter (.addi (.x 1) (.x 2) 100) = some 0x91019041 := by decide
/-- R92: `ADDIS X3, X4, -1`. -/
theorem test_addis_word : wordAfter (.addis (.x 3) (.x 4) (-1)) = some 0xB13FFC83 := by decide
/-- R93: `SUBI X5, X6, 4095`. -/
theorem test_subi_word : wordAfter (.subi (.x 5) (.x 6) 4095) = some 0xD13FFCC5 := by decide
/-- R94: `SUBIS X9, X9, 1`. -/
theorem test_subis_word : wordAfter (.subis (.x 9) (.x 9) 1) = some 0xF1000529 := by decide
/-- R95: `ANDI X10, X11, 255`. -/
theorem test_andi_word : wordAfter (.andi (.x 10) (.x 11) 255) = some 0x9203FD6A := by decide
/-- R96: `ANDIS X12, X13, 4096`. -/
theorem test_andis_word : wordAfter (.andis (.x 12) (.x 13) 4096) = some 0xF20001AC := by decide
/-- R97: `ORRI X14, X15, 240`. -/
theorem test_orri_word : wordAfter (.orri (.x 14) (.x 15) 240) = some 0xB203C1EE := by decide
/-- R98: `EORI X16, X17, -2048`. -/
theorem test_eori_word : wordAfter (.eori (.x 16) (.x 17) (-2048)) = some 0xD2200230 := by decide
/-- R99: `STUR X23, [X7, 50]`. -/
theorem test_stur_word : wordAfter (.stur (.x 23) (.x 7) 50) = some 0xF80320F7 := by decide
/-- R100: `LDUR X1, [X2, -8]`. -/
theorem test_ldur_word : wordAfter (.ldur (.x 1) (.x 2) (-8)) = some 0xF85F8041 := by decide
/-- R101: `STURB X3, [XZR, 255]`. -/
theorem test_sturb_word : wordAfter (.sturb (.x 3) .xzr 255) = some 0x380FF3E3 := by decide
/-- R102: `LDURB X4, [X5, -256]`. -/
theorem test_ldurb_word : wordAfter (.ldurb (.x 4) (.x 5) (-256)) = some 0x385000A4 := by decide
/-- R103: `MOVZ X1, 4660, LSL 16`. -/
theorem test_movz_word : wordAfter (.movz (.x 1) 4660 .lsl16) = some 0xD2A24681 := by decide
/-- R104: `MOVK X2, 65535, LSL 48`. -/
theorem test_movk_word : wordAfter (.movk (.x 2) 65535 .lsl48) = some 0xF2FFFFE2 := by decide
/-- R105: `LSR X1, X2, 4`. -/
theorem test_lsr_word : wordAfter (.lsr (.x 1) (.x 2) 4) = some 0xD3401041 := by decide
/-- R106: `LSL X3, X4, 63`. -/
theorem test_lsl_word : wordAfter (.lsl (.x 3) (.x 4) 63) = some 0xD360FC83 := by decide
/-- R107: `CBZ X1, 5`. -/
theorem test_cbz_word : wordAfter (.cbz (.x 1) 5) = some 0xB40000A1 := by decide
/-- R108: `CBNZ X2, -3`. -/
theorem test_cbnz_word : wordAfter (.cbnz (.x 2) (-3)) = some 0xB5FFFFA2 := by decide
/-- R109: `B.LT 4`. -/
theorem test_bCond_word : wordAfter (.bCond .lt 4) = some 0x5400008B := by decide
/-- R110: `B 6`. -/
theorem test_b_word : wordAfter (.b 6) = some 0x14000006 := by decide
/-- R111: `BL -1`. -/
theorem test_bl_word : wordAfter (.bl (-1)) = some 0x97FFFFFF := by decide
/-- R112: `BR X30`. -/
theorem test_br_word : wordAfter (.br (.x 30)) = some 0xD600001E := by decide

/-! ### Decoding: each kind's word written out field by field -/

theorem test_add_decodes : decodeTableWord 32 0b10001011000_00011_000000_00010_00001 = some (.add (.x 1) (.x 2) (.x 3)) := by decide
theorem test_adds_decodes : decodeTableWord 32 0b10101011000_01011_000000_01010_01001 = some (.adds (.x 9) (.x 10) (.x 11)) := by decide
theorem test_sub_decodes : decodeTableWord 32 0b11001011000_10101_000000_10100_10011 = some (.sub (.x 19) (.x 20) (.x 21)) := by decide
theorem test_subs_decodes : decodeTableWord 32 0b11101011000_00000_000000_00000_00000 = some (.subs (.x 0) (.x 0) (.x 0)) := by decide
theorem test_and_decodes : decodeTableWord 32 0b10001010000_00111_000000_00110_00101 = some (.and (.x 5) (.x 6) (.x 7)) := by decide
theorem test_ands_decodes : decodeTableWord 32 0b11101010000_11110_000000_11101_11100 = some (.ands (.x 28) (.x 29) (.x 30)) := by decide
theorem test_orr_decodes : decodeTableWord 32 0b10101010000_01110_000000_01101_01100 = some (.orr (.x 12) (.x 13) (.x 14)) := by decide
theorem test_eor_decodes : decodeTableWord 32 0b11001010000_10001_000000_10000_01111 = some (.eor (.x 15) (.x 16) (.x 17)) := by decide
theorem test_addi_decodes : decodeTableWord 32 0b1001000100_000001100100_00010_00001 = some (.addi (.x 1) (.x 2) 100) := by decide
theorem test_addis_decodes : decodeTableWord 32 0b1011000100_111111111111_00100_00011 = some (.addis (.x 3) (.x 4) 4095) := by decide
theorem test_subi_decodes : decodeTableWord 32 0b1101000100_111111111111_00110_00101 = some (.subi (.x 5) (.x 6) 4095) := by decide
theorem test_subis_decodes : decodeTableWord 32 0b1111000100_000000000001_01001_01001 = some (.subis (.x 9) (.x 9) 1) := by decide
theorem test_andi_decodes : decodeTableWord 32 0b1001001000_000011111111_01011_01010 = some (.andi (.x 10) (.x 11) 255) := by decide
theorem test_andis_decodes : decodeTableWord 32 0b1111001000_000000000000_01101_01100 = some (.andis (.x 12) (.x 13) 0) := by decide
theorem test_orri_decodes : decodeTableWord 32 0b1011001000_000011110000_01111_01110 = some (.orri (.x 14) (.x 15) 240) := by decide
theorem test_eori_decodes : decodeTableWord 32 0b1101001000_100000000000_10001_10000 = some (.eori (.x 16) (.x 17) 2048) := by decide
theorem test_stur_decodes : decodeTableWord 32 0b11111000000_000110010_00_00111_10111 = some (.stur (.x 23) (.x 7) 50) := by decide
theorem test_ldur_decodes : decodeTableWord 32 0b11111000010_111111000_00_00010_00001 = some (.ldur (.x 1) (.x 2) (-8)) := by decide
theorem test_sturb_decodes : decodeTableWord 32 0b00111000000_011111111_00_11111_00011 = some (.sturb (.x 3) .xzr 255) := by decide
theorem test_ldurb_decodes : decodeTableWord 32 0b00111000010_100000000_00_00101_00100 = some (.ldurb (.x 4) (.x 5) (-256)) := by decide
theorem test_movz_decodes : decodeTableWord 32 0b110100101_01_0001001000110100_00001 = some (.movz (.x 1) 4660 .lsl16) := by decide
theorem test_movk_decodes : decodeTableWord 32 0b111100101_11_1111111111111111_00010 = some (.movk (.x 2) 65535 .lsl48) := by decide
theorem test_lsr_decodes : decodeTableWord 32 0b11010011010_00000_000100_00010_00001 = some (.lsr (.x 1) (.x 2) 4) := by decide
theorem test_lsl_decodes : decodeTableWord 32 0b11010011011_00000_111111_00100_00011 = some (.lsl (.x 3) (.x 4) 63) := by decide
theorem test_cbz_decodes : decodeTableWord 32 0b10110100_0000000000000000101_00001 = some (.cbz (.x 1) 5) := by decide
theorem test_cbnz_decodes : decodeTableWord 32 0b10110101_1111111111111111101_00010 = some (.cbnz (.x 2) (-3)) := by decide
theorem test_bCond_decodes : decodeTableWord 32 0b01010100_0000000000000000100_0_1011 = some (.bCond .lt 4) := by decide
theorem test_b_decodes : decodeTableWord 32 0b000101_00000000000000000000000110 = some (.b 6) := by decide
theorem test_bl_decodes : decodeTableWord 32 0b100101_11111111111111111111111111 = some (.bl (-1)) := by decide
theorem test_br_decodes : decodeTableWord 32 0b11010110000_0000000000000000_11110 = some (.br (.x 30)) := by decide

/-! ### Words outside the subset (R72) -/

/-- The ROM's default word has non-zero bits where BR's layout has zeros. -/
theorem test_default_rom_word_is_no_instruction : decodeTableWord 32 0xD60003E0 = none := by decide
/-- An R-layout word with a bit of [15:10] set. -/
theorem test_r_word_with_a_stray_bit_is_no_instruction : decodeTableWord 32 0x8B030441 = none := by decide
/-- A B.cond word with bit 4 set. -/
theorem test_bCond_word_with_bit4_is_no_instruction : decodeTableWord 32 0x5400009B = none := by decide
/-- R71: every instruction is exactly 32 bits. -/
theorem test_word_of_another_length_is_no_instruction :
    decodeTableWord 33 0x114000006 = none ∧ decodeTableWord 29 0x14000006 = none := by decide

/-! ### Well-formedness: an ill-formed term for each check -/

theorem test_wf_refuses_wide_shamt : (Instr.lsl .xzr .xzr 64).wf = false := by decide
theorem test_wf_refuses_negative_shamt : (Instr.lsr .xzr .xzr (-1)).wf = false := by decide
theorem test_wf_refuses_wide_imm12 : (Instr.addi .xzr .xzr 4096).wf = false := by decide
theorem test_wf_refuses_negative_imm12 : (Instr.eori .xzr .xzr (-1)).wf = false := by decide
theorem test_wf_refuses_wide_imm16 : (Instr.movz .xzr 65536 .lsl0).wf = false := by decide
theorem test_wf_refuses_negative_imm16 : (Instr.movk .xzr (-1) .lsl0).wf = false := by decide
theorem test_wf_refuses_wide_off9 : (Instr.stur .xzr .xzr 256).wf = false := by decide
theorem test_wf_refuses_low_off9 : (Instr.ldurb .xzr .xzr (-257)).wf = false := by decide
theorem test_wf_refuses_wide_addr19 : (Instr.cbz .xzr 262144).wf = false := by decide
theorem test_wf_refuses_low_addr19 : (Instr.bCond .eq (-262145)).wf = false := by decide
theorem test_wf_refuses_wide_addr26 : (Instr.b 33554432).wf = false := by decide
theorem test_wf_refuses_low_addr26 : (Instr.bl (-33554433)).wf = false := by decide
theorem test_wf_takes_the_limits :
    (Instr.stur .xzr .xzr (-256)).wf = true ∧ (Instr.b 33554431).wf = true ∧ (Instr.addi .xzr .xzr 4095).wf = true := by
  decide

/-! ### Truncation, ports and steps -/

/-- T2: `LSL X0, X0, -5`, an Immediate6 holding -5. -/
theorem test_negative_shamt_truncates : wordAfter (.lsl (.x 0) (.x 0) (-5)) = some 0xD360EC00 := by decide
/-- T6: `STUR X0, [X1, 509]` packs as `STUR X0, [X1, -3]`. -/
theorem test_offset_wraps : wordAfter (.stur (.x 0) (.x 1) 509) = some 0xF81FD020 := by decide
/-- 95_test_vectors.md: `B 67108864` wraps to 0. -/
theorem test_branch_offset_wraps : wordAfter (.b 67108864) = some 0x14000000 := by decide
/-- 95_test_vectors.md: `B.NV -1`. -/
theorem test_bCond_nv : wordAfter (.bCond .nv (-1)) = some 0x54FFFFEF := by decide
/-- 95_test_vectors.md: `BR XZR` under the rejected reading `BR_RN_LSB = 5` is the default word. -/
theorem test_br_at5 : packBr .lsb5 (Params.spec.opc .br) .xzr = 0xD60003E0 := by decide

/-- R23: the kind code 30 is refused. -/
theorem test_kind30_is_refused :
    (match step (State.reset.drive { State.reset.ports with kind := 30 }) with
      | .refused r => some r
      | .next _ => none
      | .fault _ => none) = some (.kindNamesNoInstruction 30) := by decide
/-- R28: with nothing pending a step evaluates the present inputs, here kind 27 (B) with 6 on the bus. -/
theorem test_idle_step_evaluates_the_ports :
    (after { State.reset with ports := { State.reset.ports with kind := 27, imm := 6 } }).bind (·.word) =
      some 0x14000006 := by decide
/-- R28: the output follows a change of the inputs at once; R114: and has no word where they name no instruction. -/
theorem test_drive_settles :
    (State.reset.drive { State.reset.ports with kind := 27, imm := 6 }).word = some 0x14000006 ∧
    (State.reset.drive { State.reset.ports with kind := 30 }).word = none := by decide
/-- T1, word 0, through the ports: the host presents `STUR X23, [X7, 50]` and collects its word. -/
theorem test_step_collects_the_word :
    (after (withPending [.stur (.x 23) (.x 7) 50, .b 6])).map (fun t => (t.words, t.pending)) =
      some ([0xF80320F7], [.b 6]) := by decide
/-- Placing a table word makes the next step run its instruction (T1, word 1). -/
theorem test_withFetchWord_runs :
    (after (State.reset.withFetchWord 32 0x910004E7)).map (·.words) = some [0x910004E7] := by decide
/-- A word that is no instruction's makes step refuse. -/
theorem test_withFetchWord_refuses : after (State.reset.withFetchWord 32 0xFFFFFFFF) = none := by decide
/-- R28: the reset state's output is the encoding of its inputs, `ADD X0, X0, X0`. -/
theorem test_reset_word : State.reset.word = portWord Params.spec State.reset.ports := by decide

/-! ### The host and the ROM: the source's scenarios -/

/-- T1, Scenario A: the exact ROM text. -/
theorem test_scenario_a :
    (assembleWith Params.spec strictHost ["STUR X23, [X7, 50]".toList, "ADDI X7, X7, 1".toList, [], "B 6".toList]).output =
      some ("module rom_case(out, address);\n    output reg [31:0] out;\n    input [15:0] address;\n".toList ++
        "    always @ (address) begin\n        case (address)\n".toList ++
        "            16'd0: out = 32'b11111000000000110010000011110111;\n".toList ++
        "            16'd1: out = 32'b10010001000000000000010011100111;\n".toList ++
        "            16'd2: out = 32'b00010100000000000000000000000110;\n".toList ++
        "            default: out = 32'hD60003E0; // BR XZR\n        endcase\n    end\nend\n".toList) := by decide +kernel
/-- T3, Scenario B. -/
theorem test_scenario_b :
    (assembleWith Params.spec strictHost ["ADD X1, X2, X3".toList, "asdfasdf".toList]).output =
      some "Error on line 1".toList := by decide
/-- T4, Scenario C. -/
theorem test_scenario_c :
    (assembleWith Params.spec strictHost ["asdf".toList, "ADDI X1, X1, 1".toList, "FOO X1".toList]).output =
      some "Error on line 0Error on line 2".toList := by decide
/-- P5: an unknown mnemonic, a missing operand and an unknown condition. -/
theorem test_program_p5 :
    (assembleWith Params.spec strictHost ["ADD X1, X2, X3".toList, "MOV X1, X2".toList, [], "ADDI X1, X1".toList,
      "B.XX 4".toList]).output = some "Error on line 1Error on line 3Error on line 4".toList := by decide
/-- R75: `X31` is not a register spelling. -/
theorem test_x31_is_an_error : parseLine strictHost "ADD X31, X1, X2".toList = .error := by decide
/-- R78: the suffix is one of four. -/
theorem test_move_suffix :
    parseLine strictHost "MOVZ X1, 4660, LSL 16".toList = .instruction (.movz (.x 1) 4660 .lsl16) ∧
    parseLine strictHost "MOVK X9, 57072".toList = .instruction (.movk (.x 9) 57072 .lsl0) ∧
    parseLine strictHost "MOVZ X1, 1, LSL 8".toList = .error := by decide
/-- U2: there is no comment syntax. -/
theorem test_comment_is_an_error : parseLine strictHost "// note".toList = .error := by decide
/-- A parser that takes every lexical variant, and whose containers hold nothing but what they surely hold. -/
def laxHost : HostParams where
  immContainer := fun _ _ => none
  lexical := fun _ => true
/-- D20: a parser may take other whitespace, letter case and spellings of a register. -/
theorem test_lexical_variants :
    parseLine laxHost " add x1 ,x2,\tX03".toList = .instruction (.add (.x 1) (.x 2) (.x 3)) ∧
    parseLine laxHost "stur zr,[ x7,50 ]".toList = .instruction (.stur .xzr (.x 7) 50) ∧
    parseLine laxHost "b.lt  -4".toList = .instruction (.bCond .lt (-4)) := by decide
/-- R75, R80, R82, R125: no parser takes X31, a comment, a pseudo-instruction or a system instruction. -/
theorem test_no_parser_takes_more :
    ["ADD X31, X1, X2", "ADD x031, X1, X2", "ADD X1, X2, X3 // note", "; note", "MOV X1, X2", "cmp X1, X2", "SVC 0",
      "ADDI X1, X2"].all (fun l => parseLine laxHost l.toList == .error) = true := by decide
/-- R51, R76, D22: an `Immediate6` holds −5 under any parameters; whether it holds 64 is open. -/
theorem test_container_is_open :
    parseLine laxHost "LSL X0, X0, -5".toList = .instruction (.lsl (.x 0) (.x 0) (-5)) ∧
    parseLine laxHost "LSL X0, X0, 64".toList = .error ∧
    parseLine strictHost "LSL X0, X0, 64".toList = .instruction (.lsl (.x 0) (.x 0) 64) := by decide

/-- The system with `B 6` collected. -/
def collected : State := { withPending [] with words := [0x14000006] }
/-- R34, R40: a generated ROM, read at address 0 and at an address without a word, stays as it is when the host collects
more and takes up another program. -/
theorem test_generated_rom_stays :
    ((collected.generate 0).bind fun s => (after (s.load [.bl (-1)])).map fun t =>
      (t.words, t.roms.map Rom.out, (t.driveAddress 0 7).roms.map Rom.out)) =
      some ([0x97FFFFFF], [some 0x14000006], [some 0xD60003E0]) := by decide
/-- No ROM of a sequence that is not whole (log entry 25). -/
theorem test_no_partial_rom : (({ withPending [.b 6] with words := [0x14000006] } : State).generate 0) = none := by decide

/-! ### Witnesses: states and operands that meet each statement's hypotheses -/

theorem witness_truncationLaw : (Instr.addi (.x 1) (.x 2) 100).kind.layout.immWidth = some 12 := rfl
theorem witness_setFlagsKinds : setFlagsBase (.adds (.x 1) (.x 2) (.x 3)) = some (.add (.x 1) (.x 2) (.x 3)) := rfl
/-- For DecodingAnEncodedInstruction, BytesDecodeInEitherOrder and PortsGiveTheTypedWord. -/
theorem witness_params :
    Params.spec.patternsDisjoint = true ∧ Params.spec.condsDistinct = true ∧ (Instr.stur (.x 23) (.x 7) (-256)).wf = true := by
  decide +kernel
theorem witness_encodingADecodedWord : decodeWith Params.spec 0x14000006 = .ok (.b 6) := by rfl
theorem witness_decoder_rejects : ∀ k, (0xD60003E0 : Word) &&& maskOf Params.spec k ≠ matchOf Params.spec k := by
  intro k; cases k <;> decide
theorem witness_pending : (withPending [.b 6]).pending = [.b 6] ∧ (withPending [.b 6]).words.length < romCapacity := by
  decide
theorem witness_legalInput : LegalInput State.reset := .inr (by decide)
theorem witness_idle : State.reset.pending = [] ∧
    ofPorts Params.spec State.reset.ports = some (.add (.x 0) (.x 0) (.x 0)) := by decide
theorem witness_drive : ofPorts Params.spec { State.reset.ports with kind := 29, rn := 30 } = some (.br (.x 30)) := by
  decide
theorem witness_fetch : decodeTableWord 32 0x14000006 = some (.b 6) := by decide
/-- For OutputDependsOnThePortsOnly and EncodingTwiceGivesTheSame. -/
theorem witness_evaluate : State.reset.pending = [] ∧ State.reset.ports = (State.reset.load []).ports ∧
    ∃ t, step State.reset = .next t ∧ evaluate State.reset = .next t ∧ evaluate (State.reset.load []) = .next t :=
  ⟨rfl, rfl, _, rfl, rfl, rfl⟩
theorem witness_systemInvariant : SysInv State.reset ∧ ∃ t, step State.reset = .next t :=
  ⟨⟨rfl, wordsSpelled_of_nil rfl, by unfold Fits; decide, fun _ h => nomatch h⟩, _, rfl⟩
theorem witness_romText : romText [0x14000006] = some (romHeader ++ romLine 0 0x14000006 ++ romFooter) := rfl
/-- RomReadsWordOrDefault at the ends of each clause: the last word, and the first address past it. -/
theorem witness_romRead : [(0x14000006 : Word)].length ≤ 65536 ∧ (0 : BitVec 16).toNat < [(0x14000006 : Word)].length ∧
    [(0x14000006 : Word)].length ≤ (1 : BitVec 16).toNat := by decide
theorem witness_noErrorLine : ∀ l ∈ ["B 6".toList, []], parseLine strictHost l ≠ .error := by decide
theorem witness_errorLine : ∃ l ∈ ["FOO".toList], parseLine strictHost l = .error := by decide
theorem witness_loadProgram :
    State.reset.loadProgram strictHost ["B 6".toList] = some (State.reset.load [.b 6]) := by decide
/-- For CanonicalSpellingParsesBack, one for each way an immediate is held. -/
theorem witness_spelling :
    (∀ W v, (Instr.b 6).kind.layout.immWidth = some W → (Instr.b 6).imm? = some v →
      surelyHeld W v = true ∨ laxHost.immContainer W v = some v) ∧
    ∀ W v, (Instr.lsl .xzr .xzr 64).kind.layout.immWidth = some W → (Instr.lsl .xzr .xzr 64).imm? = some v →
      surelyHeld W v = true ∨ strictHost.immContainer W v = some v :=
  ⟨fun _ _ hW hv => .inl (by cases hW; cases hv; decide), fun _ _ _ _ => .inr rfl⟩
theorem witness_pseudo : "MOV" ∈ ["MOV", "CMP", "CMPI", "LDA", "SVC", "ERET", "MRS", "WFI"] := by simp
theorem witness_token : (∀ d ∈ "B".toList, d ≠ ' ' ∧ d ≠ '.') ∧ grammarOf strictHost "BL".toList = some (readAddr strictHost .bl) :=
  ⟨by simp, rfl⟩
/-- For GeneratedRomsAreNeverChanged, GeneratedRomReadsTheEncodings and EveryMoveKeepsTheInvariant. -/
theorem witness_generate : collected.generate 0 =
    some { collected with roms := [{ contents := [0x14000006], address := 0 }] } := by decide
/-- At the bound of R37: a ROM of 65536 words is generated, one of 65537 is not. -/
theorem witness_generate_bound (w : Word) :
    ({ collected with words := List.replicate 65536 w } : State).generate 0 ≠ none ∧
    ({ collected with words := List.replicate 65537 w } : State).generate 0 = none := by
  constructor
  · rw [State.generate_of_nil 0 rfl (List.length_replicate (n := 65536) (a := w)).le]; exact nofun
  · refine Option.eq_none_iff_forall_ne_some.2 fun t h => ?_
    have hl := (State.generate_cases h).2.1
    rw [List.length_replicate] at hl
    exact absurd hl (by decide)
theorem witness_overlong : 65536 < (List.replicate 65537 (Instr.b 6)).length := by
  rw [List.length_replicate]; decide
theorem witness_run : ∃ t, 0 < [Instr.b 6].length ∧
    Host.Core.run Sys2Proof.core 0 (State.reset.load [.b 6]) = .next t := ⟨_, by decide, rfl⟩
theorem witness_x31 : 31 ≤ 31 := by decide
theorem witness_bytes : decodeBytes Params.spec .leastFirst [0x06, 0x00, 0x00, 0x14, 0xFF] = .ok (.b 6, [0xFF]) ∧
    ([0x06, 0x00] : List Byte).length < 4 := ⟨rfl, by decide⟩

end Sys2Proof.Tests
end

section
/-! Immediate codes as residues (R11, R51, R59). -/

namespace Sys2Proof

/-- R51: truncation to W bits, read back unsigned, is the remainder modulo 2^W, of negative integers too. -/
theorem toNat_imm (W : Nat) (v : Int) : ((imm W v).toNat : Int) = v % 2 ^ W := by
  have hnonneg : 0 ≤ v % (2 : Int) ^ W := Int.emod_nonneg v (by positivity)
  simpa [imm, BitVec.toNat_ofInt] using hnonneg

/-- R59: the integers an encoder cannot tell apart at width W are those whose difference 2^W divides, since equal
codes are equal residues. -/
theorem imm_eq_imm_iff_dvd_sub (W : Nat) (v v' : Int) : imm W v = imm W v' ↔ (2 ^ W : Int) ∣ v - v' := by
  calc imm W v = imm W v'
      ↔ ((imm W v).toNat : Int) = (imm W v').toNat := by rw [Int.natCast_inj, BitVec.toNat_inj]
    _ ↔ v % 2 ^ W = v' % 2 ^ W := by rw [toNat_imm, toNat_imm]
    _ ↔ (2 ^ W : Int) ∣ v - v' := by rw [Int.emod_eq_emod_iff_emod_sub_eq_zero, Int.dvd_iff_emod_eq_zero]

/-- Settles O3, from the residue law of the codec and the comparison of residues. -/
theorem immediateCodesAreResidues : Obligations.ImmediateCodesAreResidues :=
  fun W v v' => ⟨toNat_imm W v, imm_eq_imm_iff_dvd_sub W v v'⟩

end Sys2Proof
end

section
/-! What a field write does to a word that is zero there, and from it: every meaning's word, made by the rules' pseudocode
(R61 to R69), is the table encoder's (R70, R73). -/

namespace Sys2Proof

/-- The n bits of a word from bit lo up are zero. -/
def FieldClear (lo n : Nat) (word : Word) : Prop := ∀ i, lo ≤ i → i < lo + n → word.getLsbD i = false

@[simp] theorem fieldClear_zero (lo n : Nat) : FieldClear lo n 0#32 := by
  simp [FieldClear]

/-- Bits are zero in a disjunction when they are in both words. -/
@[simp] theorem fieldClear_or {lo n : Nat} {v w : Word} :
    FieldClear lo n (v ||| w) ↔ FieldClear lo n v ∧ FieldClear lo n w := by
  simp only [FieldClear, BitVec.getLsbD_or, Bool.or_eq_false_iff, ← forall_and]

/-- A placed field leaves the bits of any field above or below it zero. -/
theorem fieldClear_place {lo n lo' m : Nat} (v : BitVec m) (hm : lo' + m ≤ 32)
    (hdisj : lo + n ≤ lo' ∨ lo' + m ≤ lo) : FieldClear lo n (place lo' v) := by
  intro i _ _
  rw [getLsbD_place lo' v hm, if_neg (by omega)]

end Sys2Proof

namespace Sys2Proof.Machine

/-- Writing a field that is zero so far places the value there (R11). -/
theorem setField_of_fieldClear {n : Nat} {word : Word} {lo : Nat} (v : BitVec n) (h : lo + n ≤ 32)
    (hclear : FieldClear lo n word) : setField word lo v = word ||| place lo v := by
  apply BitVec.eq_of_getLsbD_eq
  intro i _
  rw [getLsbD_setField word lo v h, BitVec.getLsbD_or, getLsbD_place lo v h]
  by_cases hi : lo ≤ i ∧ i < lo + n
  · simp [hi, hclear i hi.1 hi.2]
  · simp [hi]

/-- R61 as placed fields. -/
theorem packR_eq_place (opc : BitVec 11) (rd rn rm : Reg) :
    packR opc rd rn rm = place 21 opc ||| (place 16 (reg5 rm) ||| place 5 (reg5 rn) ||| place 0 (reg5 rd)) := by
  simp [packR, setField_of_fieldClear, fieldClear_place, BitVec.or_assoc]

/-- R62 as placed fields. -/
theorem packI_eq_place (opc : BitVec 10) (rd rn : Reg) (v : Int) :
    packI opc rd rn v = place 22 opc ||| (place 10 (imm 12 v) ||| place 5 (reg5 rn) ||| place 0 (reg5 rd)) := by
  simp [packI, setField_of_fieldClear, fieldClear_place, BitVec.or_assoc]

/-- R63 as placed fields. -/
theorem packD_eq_place (opc : BitVec 11) (rt rn : Reg) (off : Int) :
    packD opc rt rn off = place 21 opc ||| (place 12 (imm 9 off) ||| place 5 (reg5 rn) ||| place 0 (reg5 rt)) := by
  simp [packD, setField_of_fieldClear, fieldClear_place, BitVec.or_assoc]

/-- R64 as placed fields. -/
theorem packIm_eq_place (opc : BitVec 9) (rd : Reg) (v : Int) (hw : ShiftAmount) :
    packIm opc rd v hw = place 23 opc ||| (place 21 (shift2 hw) ||| place 5 (imm 16 v) ||| place 0 (reg5 rd)) := by
  simp [packIm, setField_of_fieldClear, fieldClear_place, BitVec.or_assoc]

/-- R65 as placed fields. -/
theorem packShift_eq_place (opc : BitVec 11) (rd rn : Reg) (shamt : Int) :
    packShift opc rd rn shamt =
      place 21 opc ||| (place 10 (imm 6 shamt) ||| place 5 (reg5 rn) ||| place 0 (reg5 rd)) := by
  simp [packShift, setField_of_fieldClear, fieldClear_place, BitVec.or_assoc]

/-- R66 as placed fields. -/
theorem packCb_eq_place (opc : BitVec 8) (rt : Reg) (addr : Int) :
    packCb opc rt addr = place 24 opc ||| (place 5 (imm 19 addr) ||| place 0 (reg5 rt)) := by
  simp [packCb, setField_of_fieldClear, fieldClear_place, BitVec.or_assoc]

/-- R67 as placed fields. -/
theorem packBCond_eq_place (opc : BitVec 8) (cc : BitVec 4) (addr : Int) :
    packBCond opc cc addr = place 24 opc ||| (place 5 (imm 19 addr) ||| place 0 (cc.setWidth 5)) := by
  simp [packBCond, setField_of_fieldClear, fieldClear_place, BitVec.or_assoc]

/-- R68 as placed fields. -/
theorem packB_eq_place (opc : BitVec 6) (addr : Int) : packB opc addr = place 26 opc ||| place 0 (imm 26 addr) := by
  simp [packB, setField_of_fieldClear, fieldClear_place]

/-- R69 with `BR_RN_LSB = 0` as placed fields. -/
theorem packBr_eq_place (opc : BitVec 11) (rn : Reg) : packBr .lsb0 opc rn = place 21 opc ||| place 0 (reg5 rn) := by
  simp [packBr, setField_of_fieldClear, fieldClear_place]

/-- Driving the output port with a word that is another one as well. -/
theorem emit_of_eq {w w' : Word} (h : w = w') (s : State) : emit w s = .next (s.setWord w') := h ▸ emit_eq_next w s

/-- What an instruction does: its word goes onto the output port, and nothing else changes (R14, R16, R70). -/
theorem exec_eq_next (i : Instr) (s : State) : exec i s = .next (s.setWord (encode i)) := by
  cases i with
  | add | adds | sub | subs | and | ands | orr | eor =>
    exact emit_of_eq (packR_eq_place _ _ _ _) s
  | addi | addis | subi | subis | andi | andis | orri | eori =>
    exact emit_of_eq (packI_eq_place _ _ _ _) s
  | stur | ldur | sturb | ldurb => exact emit_of_eq (packD_eq_place _ _ _ _) s
  | movz | movk => exact emit_of_eq (packIm_eq_place _ _ _ _) s
  | lsr | lsl => exact emit_of_eq (packShift_eq_place _ _ _ _) s
  | cbz | cbnz => exact emit_of_eq (packCb_eq_place _ _ _) s
  | bCond => exact emit_of_eq (packBCond_eq_place _ _ _) s
  | b | bl => exact emit_of_eq (packB_eq_place _ _) s
  | br => exact emit_of_eq (packBr_eq_place _ _) s

end Sys2Proof.Machine
end

section
/-! The fields of an instruction's word: its opcode field holds its kind's literal, the rest of it does not depend on that
literal or on the bits of an immediate above its width, and the decoder takes it. -/

namespace Sys2Proof
open Spec

/-! ### The opcode field (R45) -/

/-- Every opcode field reaches up to bit 31. -/
theorem Layout.opcLsb_add_opcWidth (l : Layout) : l.opcLsb + l.opcWidth = 32 := by cases l <;> rfl

theorem encodeWith_eq_place (P : Params) (i : Instr) :
    encodeWith P i = place i.kind.layout.opcLsb (P.opc i.kind) ||| operandBits P i := rfl

/-- No operand reaches into the opcode field. -/
theorem fieldClear_operandBits (P : Params) (i : Instr) :
    FieldClear i.kind.layout.opcLsb i.kind.layout.opcWidth (operandBits P i) := by
  cases i with
  | br =>
    cases hpos : P.brRnLsb <;>
      simp [operandBits, hpos, Instr.kind, Kind.layout, Layout.opcLsb, Layout.opcWidth, fieldClear_place]
  | _ => simp [operandBits, Instr.kind, Kind.layout, Layout.opcLsb, Layout.opcWidth, fieldClear_place]

/-- The opcode field of a word holds its kind's literal. -/
theorem slice_opc_encodeWith (P : Params) (i : Instr) :
    slice i.kind.layout.opcLsb i.kind.layout.opcWidth (encodeWith P i) = P.opc i.kind := by
  have hfit := i.kind.layout.opcLsb_add_opcWidth
  apply BitVec.eq_of_getLsbD_eq
  intro n hn
  have hclear := fieldClear_operandBits P i (i.kind.layout.opcLsb + n) (by omega) (by omega)
  rw [slice, BitVec.getLsbD_extractLsb', encodeWith_eq_place, BitVec.getLsbD_or, getLsbD_place _ _ hfit.le, hclear]
  simp [hn]

/-- Two instructions of one layout with one set of operand bits have words that differ in the opcode field only. -/
theorem agreeOutside_opc_of_operandBits_eq {P : Params} {i j : Instr} (hl : i.kind.layout = j.kind.layout)
    (ho : operandBits P i = operandBits P j) :
    AgreeOutside i.kind.layout.opcLsb i.kind.layout.opcWidth (encodeWith P i) (encodeWith P j) := by
  intro n hn
  have hn' : ¬ (j.kind.layout.opcLsb ≤ n ∧ n < j.kind.layout.opcLsb + j.kind.layout.opcWidth) := hl ▸ hn
  simp only [encodeWith_eq_place, BitVec.getLsbD_or, ho]
  rw [getLsbD_place _ _ (Layout.opcLsb_add_opcWidth _).le, getLsbD_place _ _ (Layout.opcLsb_add_opcWidth _).le,
    if_neg hn, if_neg hn']

/-! ### Immediates (R51, R58) -/

/-- An immediate field is at most 26 bits wide, so the 32-bit bus is wide enough for it (R15, R22). -/
theorem Layout.immWidth_le_bus {l : Layout} {W : Nat} (h : l.immWidth = some W) : W ≤ 32 := by
  cases l <;> cases h <;> decide

@[simp] theorem Instr.mapImm_kind (f : Int → Int) (i : Instr) : (i.mapImm f).kind = i.kind := by cases i <;> rfl

/-- Changing an immediate to one with the same code leaves the operand bits. -/
theorem operandBits_mapImm {P : Params} {i : Instr} {f : Int → Int}
    (h : ∀ W v, i.kind.layout.immWidth = some W → imm W (f v) = imm W v) :
    operandBits P (i.mapImm f) = operandBits P i := by
  cases i with
  | add | adds | sub | subs | and | ands | orr | eor | br => rfl
  | _ => simp only [operandBits, Instr.mapImm, h _ _ rfl]

/-- Changing an immediate to one with the same code leaves the word. -/
theorem encodeWith_mapImm {P : Params} {i : Instr} {f : Int → Int}
    (h : ∀ W v, i.kind.layout.immWidth = some W → imm W (f v) = imm W v) :
    encodeWith P (i.mapImm f) = encodeWith P i := by
  rw [encodeWith, encodeWith, operandBits_mapImm h, Instr.mapImm_kind]

/-! ### Condition codes (R49, R59) -/

theorem mem_allConds (c : Cond) : c ∈ allConds := by cases c <;> decide

theorem Params.condOrdinal_injective {P : Params} (h : P.condsDistinct = true) : Function.Injective P.condOrdinal := by
  intro c c' hc
  have hall := List.all_eq_true.1 (List.all_eq_true.1 h c (mem_allConds c)) c' (mem_allConds c')
  simpa [hc] using hall

/-- Reading a condition's code gives the condition, where distinct conditions have distinct codes. -/
theorem condOfCode_cond4 {P : Params} (h : P.condsDistinct = true) (c : Cond) :
    condOfCode P (cond4 P c) = some c := by
  cases hf : condOfCode P (cond4 P c) with
  | none => exact absurd (beq_self_eq_true _) (List.find?_eq_none.1 hf c (mem_allConds c))
  | some k =>
    unfold condOfCode at hf
    have hcode : P.condOrdinal k = P.condOrdinal c := by simpa [cond4] using List.find?_some hf
    rw [P.condOrdinal_injective h hcode]

theorem condsDistinct_spec : Params.spec.condsDistinct = true := by decide

/-- Under the spec's parameters every 4-bit code is some condition's. -/
theorem isSome_condOfCode_spec : ∀ c : BitVec 4, (condOfCode Params.spec c).isSome := by decide

/-! ### The decoder takes every word the block makes (R72) -/

theorem Kind.mem_all (k : Kind) : k ∈ Kind.all := by cases k <;> decide

/-- Under any parameter values, an instruction's word matches the pattern of its kind (R73). -/
theorem encodeWith_and_maskOf (P : Params) (i : Instr) : encodeWith P i &&& maskOf P i.kind = matchOf P i.kind := by
  cases i with
  | add rd rn rm => exact Laws.FixedBits.add rd rn rm P
  | adds rd rn rm => exact Laws.FixedBits.adds rd rn rm P
  | sub rd rn rm => exact Laws.FixedBits.sub rd rn rm P
  | subs rd rn rm => exact Laws.FixedBits.subs rd rn rm P
  | and rd rn rm => exact Laws.FixedBits.and rd rn rm P
  | ands rd rn rm => exact Laws.FixedBits.ands rd rn rm P
  | orr rd rn rm => exact Laws.FixedBits.orr rd rn rm P
  | eor rd rn rm => exact Laws.FixedBits.eor rd rn rm P
  | addi rd rn v => exact Laws.FixedBits.addi rd rn v P
  | addis rd rn v => exact Laws.FixedBits.addis rd rn v P
  | subi rd rn v => exact Laws.FixedBits.subi rd rn v P
  | subis rd rn v => exact Laws.FixedBits.subis rd rn v P
  | andi rd rn v => exact Laws.FixedBits.andi rd rn v P
  | andis rd rn v => exact Laws.FixedBits.andis rd rn v P
  | orri rd rn v => exact Laws.FixedBits.orri rd rn v P
  | eori rd rn v => exact Laws.FixedBits.eori rd rn v P
  | stur rt rn off => exact Laws.FixedBits.stur rt rn off P
  | ldur rt rn off => exact Laws.FixedBits.ldur rt rn off P
  | sturb rt rn off => exact Laws.FixedBits.sturb rt rn off P
  | ldurb rt rn off => exact Laws.FixedBits.ldurb rt rn off P
  | movz rd v hw => exact Laws.FixedBits.movz rd v hw P
  | movk rd v hw => exact Laws.FixedBits.movk rd v hw P
  | lsr rd rn shamt => exact Laws.FixedBits.lsr rd rn shamt P
  | lsl rd rn shamt => exact Laws.FixedBits.lsl rd rn shamt P
  | cbz rt addr => exact Laws.FixedBits.cbz rt addr P
  | cbnz rt addr => exact Laws.FixedBits.cbnz rt addr P
  | bCond c addr => exact Laws.FixedBits.bCond c addr P
  | b addr => exact Laws.FixedBits.b addr P
  | bl addr => exact Laws.FixedBits.bl addr P
  | br rn => exact Laws.FixedBits.br rn P

/-- Under the spec's parameters the operands of any word can be read, whatever its kind. -/
theorem isSome_operandsOf_spec (w : Word) (k : Kind) : (operandsOf Params.spec w k).isSome := by
  cases k with
  | bCond => rw [operandsOf, Option.isSome_map]; exact isSome_condOfCode_spec _
  | _ => rfl

/-- A word that matches some kind's pattern is an instruction's. -/
theorem decode_of_wordIsKind {w : Word} {k : Kind} (h : w &&& maskOf Params.spec k = matchOf Params.spec k) :
    ∃ i, decode w = .ok i := by
  unfold decode decodeWith
  split
  · next hnone => exact absurd (beq_iff_eq.2 h) (List.find?_eq_none.1 hnone k k.mem_all)
  · next k' _ =>
    obtain ⟨i, hi⟩ := Option.isSome_iff_exists.1 (isSome_operandsOf_spec w k')
    exact ⟨i, by rw [hi]⟩

/-- Every word the block makes spells an instruction. -/
theorem decode_encode_ok (i : Instr) : ∃ j, decode (encode i) = .ok j :=
  decode_of_wordIsKind (encodeWith_and_maskOf Params.spec i)

end Sys2Proof

namespace Sys2Proof.Machine
open Spec

/-- A SetFlags kind has its base kind's layout and its operands' bits, under any parameters (R26). -/
theorem setFlagsBase_layout_operandBits {i j : Instr} (h : setFlagsBase i = some j) :
    i.kind.layout = j.kind.layout ∧ ∀ P, operandBits P i = operandBits P j := by
  cases i with
  | adds | subs | ands | addis | subis | andis => cases h; exact ⟨rfl, fun _ => rfl⟩
  | _ => cases h

/-- Settles O20, from the opcode field of each word and the operand bits the two kinds share. -/
theorem setFlagsKindsDifferOnlyInOpcode : Obligations.SetFlagsKindsDifferOnlyInOpcode := by
  intro i j s h
  obtain ⟨hl, ho⟩ := setFlagsBase_layout_operandBits h
  exact ⟨encode i, encode j, exec_eq_next i s, exec_eq_next j s, hl, agreeOutside_opc_of_operandBits_eq hl (ho _),
    slice_opc_encodeWith _ i, slice_opc_encodeWith _ j⟩

end Sys2Proof.Machine
end

section
/-! The port-level form of the input (R22 to R24): which codes name a kind, and the instruction that driven ports carry. -/

namespace Sys2Proof.Machine

/-! ### Kind codes (R23, R44) -/

@[simp] theorem kindOfCode_kindCode (k : Kind) : kindOfCode (kindCode k) = some k := by cases k <;> decide

theorem kindOfCode_eq_none_iff : ∀ c : BitVec 5, kindOfCode c = none ↔ 30 ≤ c.toNat := by decide

/-- The code of the n-th kind of the table is n. -/
theorem map_kindCode_getElem? (n : Nat) :
    (Kind.all[n]?).map kindCode = if n < 30 then some (BitVec.ofNat 5 n) else none := by
  have hbelow : ∀ n : Fin 30, (Kind.all[n.val]?).map kindCode = some (BitVec.ofNat 5 n) := by decide
  by_cases hn : n < 30
  · rw [if_pos hn]; exact hbelow ⟨n, hn⟩
  · rw [if_neg hn, List.getElem?_eq_none (Nat.not_lt.1 hn)]; rfl

/-- Settles O30, from the table's length and one evaluation for each code. -/
theorem kindCodesAreTableIndices : Obligations.KindCodesAreTableIndices :=
  ⟨map_kindCode_getElem?, kindOfCode_kindCode, kindOfCode_eq_none_iff⟩

/-! ### What the ports carry -/

/-- Under the spec's parameters the operands of any kind can be read from any ports. -/
theorem isSome_operandsOnPorts_spec (p : Ports) (k : Kind) : (operandsOnPorts Params.spec p k).isSome := by
  cases k with
  | bCond => rw [operandsOnPorts, Option.isSome_map]; exact isSome_condOfCode_spec _
  | _ => rfl

/-- The ports carry no instruction exactly when their kind code is 30 or 31 (R23). -/
theorem ofPorts_spec_eq_none_iff (p : Ports) : ofPorts Params.spec p = none ↔ 30 ≤ p.kind.toNat := by
  rw [← kindOfCode_eq_none_iff]
  unfold ofPorts
  cases kindOfCode p.kind with
  | none => simp
  | some k => simpa using Option.isSome_iff_ne_none.1 (isSome_operandsOnPorts_spec p k)

theorem portWord_spec_eq_none_iff (p : Ports) : portWord Params.spec p = none ↔ 30 ≤ p.kind.toNat := by
  rw [portWord, Option.map_eq_none_iff, ofPorts_spec_eq_none_iff]

/-- The word of ports that carry an instruction is its encoding. -/
theorem portWord_of_ofPorts {p : Ports} {i : Instr} (h : ofPorts Params.spec p = some i) :
    portWord Params.spec p = some (encode i) := by
  rw [portWord, h]; rfl

/-- The ports an instruction drives carry that instruction, its immediate as the bus holds it, whatever they carry that
its kind does not name. -/
theorem ofPorts_portsOf {P : Params} (h : P.condsDistinct = true) (u : Ports) (i : Instr) :
    ofPorts P (portsOf P u i) = some (i.mapImm fun v => (imm 32 v).toInt) := by
  cases i with
  | bCond c addr => simp [ofPorts, portsOf, operandsOnPorts, Instr.mapImm, condOfCode_cond4 h]
  | _ => simp [ofPorts, portsOf, driveR, driveRegsImm, operandsOnPorts, Instr.mapImm]

/-- The 32-bit bus keeps every instruction's word (R24). -/
theorem encodeWith_mapImm_bus (P : Params) (i : Instr) :
    encodeWith P (i.mapImm fun v => (imm 32 v).toInt) = encodeWith P i :=
  encodeWith_mapImm fun W v hW => imm_toInt_imm W v (Layout.immWidth_le_bus hW)

/-- Settles O29: the ports carry the instruction up to its immediate's form on the bus, which the word does not see. -/
theorem portsGiveTheTypedWord : Obligations.PortsGiveTheTypedWord := by
  intro P h u i
  rw [portWord, ofPorts_portsOf h, Option.map_some, encodeWith_mapImm_bus]

end Sys2Proof.Machine
end

section
/-! What an evaluation and a step do, in every case (R14, R23, R28, R114, R119). -/

namespace Sys2Proof.Machine

/-! ### An evaluation -/

/-- Driving the output port with the word it carries changes nothing. -/
theorem State.setWord_of_word {s : State} {w : Word} (h : s.word = some w) : s.setWord w = s := by
  unfold State.setWord; rw [← h]

/-- Ports that carry an instruction evaluate to its word, and nothing else changes. -/
theorem evaluate_of_ofPorts {s : State} {i : Instr} (h : ofPorts Params.spec s.ports = some i) :
    evaluate s = .next (s.setWord (encode i)) := by
  unfold evaluate; rw [h]; exact exec_eq_next i s

/-- Ports whose kind code names no instruction are refused. -/
theorem evaluate_of_unnamed {s : State} (h : 30 ≤ s.ports.kind.toNat) :
    evaluate s = .refused (.kindNamesNoInstruction s.ports.kind) := by
  unfold evaluate; rw [(ofPorts_spec_eq_none_iff s.ports).2 h]

/-- Ports whose kind code is below 30 carry an instruction. -/
theorem exists_ofPorts_of_named {p : Ports} (h : p.kind.toNat < 30) : ∃ i, ofPorts Params.spec p = some i :=
  Option.ne_none_iff_exists'.1 fun hnone => Nat.not_le.2 h ((ofPorts_spec_eq_none_iff p).1 hnone)

/-- An evaluation that goes on puts the port-level word on the output port, and changes nothing else (R14). -/
theorem evaluate_next_portWord {s t : State} (h : evaluate s = .next t) :
    ∃ w, portWord Params.spec s.ports = some w ∧ t = s.setWord w := by
  obtain ⟨i, hi, _⟩ := evaluate_next_cases h
  rw [evaluate_of_ofPorts hi] at h
  exact ⟨encode i, portWord_of_ofPorts hi, (Host.Outcome.next.inj h).symm⟩

/-! ### Presenting -/

/-- The ports a presented instruction drives have its word. -/
theorem portWord_present {s : State} {i : Instr} {rest : List Instr} (h : s.pending = i :: rest) :
    portWord Params.spec s.present.ports = some (encode i) := by
  rw [State.present_of_cons h]
  exact portsGiveTheTypedWord Params.spec condsDistinct_spec _ i

theorem State.present_pending {s : State} {i : Instr} {rest : List Instr} (h : s.pending = i :: rest) :
    s.present.pending = rest := by
  rw [State.present_of_cons h]

/-- Presenting keeps a settled output settled (R28). -/
theorem settled_present {s : State} (h : Settled s) : Settled s.present := by
  cases hp : s.pending with
  | nil => rwa [State.present_of_nil hp]
  | cons i rest => rw [State.present_of_cons hp]; rfl

/-! ### A step -/

/-- With an instruction pending, a step presents it, puts its word on the output port and collects it. -/
theorem step_of_pending {s : State} {i : Instr} {rest : List Instr} (h : s.pending = i :: rest) :
    step s = .next (s.present.setWord (encode i)).collect := by
  obtain ⟨j, hj, hw⟩ := Option.map_eq_some_iff.1 (portWord_present h)
  have hev := evaluate_of_ofPorts hj
  rw [show encode j = encode i from hw] at hev
  exact step_of_cons h hev

/-- A step that goes on gives the port-level word of the present ports, or presents an instruction and collects its
word. -/
theorem step_next_word_cases {s t : State} (h : step s = .next t) :
    (s.pending = [] ∧ ∃ w, portWord Params.spec s.ports = some w ∧ t = s.setWord w) ∨
    ∃ i rest, s.pending = i :: rest ∧ t = (s.present.setWord (encode i)).collect := by
  cases hp : s.pending with
  | nil => exact .inl ⟨rfl, evaluate_next_portWord (step_of_nil hp ▸ h)⟩
  | cons i rest => exact .inr ⟨i, rest, rfl, Host.Outcome.next.inj (h.symm.trans (step_of_pending hp))⟩

/-- A step is refused exactly when nothing is pending and the present kind code names no instruction. -/
theorem step_refused_iff (s : State) (r : Refusal) : step s = .refused r ↔
    s.pending = [] ∧ 30 ≤ s.ports.kind.toNat ∧ r = .kindNamesNoInstruction s.ports.kind := by
  cases hp : s.pending with
  | cons i rest => simp [step_of_pending hp]
  | nil =>
    rw [step_of_nil hp]
    obtain hk | hk := Nat.lt_or_ge s.ports.kind.toNat 30
    · obtain ⟨i, hi⟩ := exists_ofPorts_of_named hk
      simp [evaluate_of_ofPorts hi, hk]
    · simp [evaluate_of_unnamed hk, hk, eq_comm]

/-- From a legal input a step goes on. -/
theorem exists_step_of_legalInput {s : State} (h : LegalInput s) : ∃ t, step s = .next t := by
  cases hp : s.pending with
  | cons i rest => exact ⟨_, step_of_pending hp⟩
  | nil =>
    obtain ⟨i, hi⟩ := exists_ofPorts_of_named (h.resolve_left (absurd hp))
    exact ⟨_, (step_of_nil hp).trans (evaluate_of_ofPorts hi)⟩

/-- Settles O31, from what a step does with an instruction pending and, with none, on each kind code. -/
theorem onlyAnUnnamedKindIsRefused : Obligations.OnlyAnUnnamedKindIsRefused :=
  ⟨step_refused_iff, fun _ => exists_step_of_legalInput⟩

/-- Settles O34: both evaluations give the port-level word of the same ports. -/
theorem outputDependsOnThePortsOnly : Obligations.OutputDependsOnThePortsOnly := by
  intro s s' t t' hports ht ht'
  obtain ⟨w, hw, rfl⟩ := evaluate_next_portWord ht
  obtain ⟨w', hw', rfl⟩ := evaluate_next_portWord ht'
  have heq : some w = some w' := by rw [← hw, ← hw', hports]
  exact ⟨heq, hw, rfl⟩

/-- Settles O35, clause by clause: ports driven to an instruction, ports driven to anything, and presenting. -/
theorem outputFollowsTheInputsAtOnce : Obligations.OutputFollowsTheInputsAtOnce := by
  refine ⟨fun s p i hi => ?_, fun s p => ⟨settled_drive s p, portWord_spec_eq_none_iff p, fun hp hk => ?_⟩,
    fun s => settled_present⟩
  · have hword : (s.drive p).word = some (encode i) := portWord_of_ofPorts hi
    have hsame := State.setWord_of_word hword
    refine ⟨hword, settled_drive s p, ?_, fun hp => ?_⟩
    · rw [exec_eq_next, hsame]
    · rw [step_of_nil (s := s.drive p) hp, evaluate_of_ofPorts hi, hsame]
  · exact (step_refused_iff _ _).2 ⟨hp, hk, rfl⟩

end Sys2Proof.Machine
end

section
/-! The system's invariant: it holds after power-up, every step keeps it, and so does every move that is no step
(R28, R37, R72). -/

namespace Sys2Proof.Machine

/-! ### The parts of the invariant under changes of the fields they read -/

theorem WordsSpelled.of_words_eq {s t : State} (h : WordsSpelled s) (hw : t.words = s.words) : WordsSpelled t := by
  unfold WordsSpelled; rwa [hw]

theorem RomsLegal.of_roms_eq {s t : State} (h : RomsLegal s) (hr : t.roms = s.roms) : RomsLegal t := by
  unfold RomsLegal; rwa [hr]

/-- Whether the ROMs are legal depends on their contents only. -/
theorem RomsLegal.of_contents_eq {s t : State} (h : RomsLegal s)
    (hc : t.roms.map Rom.contents = s.roms.map Rom.contents) : RomsLegal t := by
  intro r hr
  obtain ⟨r', hr', heq⟩ := List.mem_map.1 (hc ▸ List.mem_map_of_mem hr)
  exact heq ▸ h r' hr'

/-- Adding the ROM of words that fit and spell instructions keeps the ROMs legal. -/
theorem RomsLegal.append {s t : State} {r : Rom} (h : RomsLegal s) (ht : t.roms = s.roms ++ [r])
    (hl : r.contents.length ≤ romCapacity) (hw : ∀ w ∈ r.contents, ∃ i, decode w = .ok i) : RomsLegal t := by
  intro r' hr'
  rw [ht, List.mem_append, List.mem_singleton] at hr'
  obtain hr' | rfl := hr'
  · exact h r' hr'
  · exact ⟨hl, hw⟩

/-! ### Power-up and steps -/

/-- Settles O38: the output after power-up is the word of the inputs then, and nothing is held to say more of. -/
theorem powerUpMeetsTheInvariant : Obligations.PowerUpMeetsTheInvariant where
  settled := by unfold Settled; decide
  spelled := wordsSpelled_of_nil rfl
  fits := Nat.zero_le _
  roms := fun _ h => nomatch h

/-- With nothing pending, putting the port-level word on the output port keeps the invariant. -/
theorem SysInv.setWord {s : State} {w : Word} (h : SysInv s) (hw : portWord Params.spec s.ports = some w) :
    SysInv (s.setWord w) where
  settled := hw.symm
  spelled := h.spelled
  fits := h.fits
  roms := h.roms

/-- Encoding the next pending instruction keeps the invariant: its word spells an instruction, and it is collected in the
place that the instruction held among the pending ones. -/
theorem SysInv.encodeNext {s : State} {i : Instr} {rest : List Instr} (h : SysInv s) (hp : s.pending = i :: rest) :
    SysInv (s.present.setWord (encode i)).collect where
  settled := (portWord_present hp).symm
  spelled := by
    refine wordsSpelled_collect (h.spelled.of_words_eq (State.present_words s)) fun w hw => ?_
    rw [State.setWord_word, Option.some.injEq] at hw
    exact hw ▸ decode_encode_ok i
  fits := by
    have hfits := h.fits
    simp only [Fits, hp, List.length_cons] at hfits
    simp only [Fits, State.collect_words, State.collect_pending, State.setWord_words, State.setWord_word,
      State.setWord_pending, State.present_words, State.present_pending hp, Option.toList_some, List.length_append,
      List.length_singleton]
    omega
  roms := h.roms.of_roms_eq (State.present_roms s)

/-- Settles O37, by what a step can do: with nothing pending it sets the output, else it encodes the next instruction. -/
theorem stepKeepsTheInvariant : Obligations.StepKeepsTheInvariant := by
  intro s t h hstep
  obtain ⟨_, w, hw, rfl⟩ | ⟨i, rest, hp, rfl⟩ := step_next_word_cases hstep
  · exact h.setWord hw
  · exact h.encodeNext hp

/-! ### The moves that are no step -/

theorem SysInv.drive {s : State} (h : SysInv s) (p : Ports) : SysInv (s.drive p) where
  settled := settled_drive s p
  spelled := h.spelled
  fits := h.fits
  roms := h.roms

/-- Taking up instructions drops the words collected before (log entry 26), so only the new ones have to fit. -/
theorem SysInv.load {s : State} (h : SysInv s) {is : List Instr} (hl : is.length ≤ romCapacity) :
    SysInv (s.load is) where
  settled := h.settled
  spelled := wordsSpelled_of_nil rfl
  fits := by simpa [Fits] using hl
  roms := h.roms

theorem SysInv.generate {s t : State} {a : BitVec 16} (h : SysInv s) (ht : s.generate a = some t) : SysInv t := by
  obtain ⟨_, hl, rfl⟩ := State.generate_cases ht
  exact ⟨h.settled, h.spelled, h.fits, h.roms.append rfl hl h.spelled⟩

theorem SysInv.driveAddress {s : State} (h : SysInv s) (n : Nat) (a : BitVec 16) : SysInv (s.driveAddress n a) where
  settled := h.settled
  spelled := h.spelled
  fits := h.fits
  roms := h.roms.of_contents_eq (State.driveAddress_contents s n a)

/-- Settles O55, one move each. -/
theorem everyMoveKeepsTheInvariant : Obligations.EveryMoveKeepsTheInvariant :=
  fun _ h => ⟨h.drive, fun _ => h.load, fun _ _ => h.generate, h.driveAddress⟩

end Sys2Proof.Machine
end

section
/-! Decoding the word of a well-formed instruction gives the instruction back (R72, R73); and so do the word's bytes, in
either order (R31, R71). -/

namespace Sys2Proof

/-! ### Fields read back from a word -/

@[simp] theorem slice_or (lo n : Nat) (v w : Word) : slice lo n (v ||| w) = slice lo n v ||| slice lo n w :=
  BitVec.extractLsb'_or

/-- A placed field reads back as its value. -/
@[simp] theorem slice_place {n : Nat} (lo : Nat) (v : BitVec n) (h : lo + n ≤ 32) : slice lo n (place lo v) = v := by
  apply BitVec.eq_of_getLsbD_eq
  intro i hi
  rw [slice, BitVec.getLsbD_extractLsb', getLsbD_place lo v h, if_pos (by omega)]
  simp [hi]

/-- A field whose bits are zero reads as zero. -/
theorem slice_of_fieldClear {lo n : Nat} {w : Word} (h : FieldClear lo n w) : slice lo n w = 0#n := by
  apply BitVec.eq_of_getLsbD_eq
  intro i hi
  simp [slice, h (lo + i) (by omega) (by omega)]

/-- A placed field leaves every field above or below it zero. -/
@[simp] theorem slice_place_of_disjoint {lo n lo' m : Nat} (v : BitVec m) (hm : lo' + m ≤ 32)
    (hdisj : lo + n ≤ lo' ∨ lo' + m ≤ lo) : slice lo n (place lo' v) = 0#n :=
  slice_of_fieldClear (fieldClear_place v hm hdisj)

/-- The low four bits of B.cond's condition field are the condition's code (R67). -/
@[simp] theorem slice_place_cond5 (P : Params) (c : Cond) : slice 0 4 (place 0 (cond5 P c)) = cond4 P c := by
  apply BitVec.eq_of_getLsbD_eq
  intro i hi
  rw [slice, BitVec.getLsbD_extractLsb', getLsbD_place 0 _ (by omega), if_pos (by omega)]
  simp [cond5, hi, show i < 5 by omega]

/-- A field below the opcode is the operands' alone. -/
theorem slice_encodeWith (P : Params) {i : Instr} {lo n : Nat} (h : lo + n ≤ i.kind.layout.opcLsb) :
    slice lo n (encodeWith P i) = slice lo n (operandBits P i) := by
  have hopc := slice_place_of_disjoint (P.opc i.kind) i.kind.layout.opcLsb_add_opcWidth.le (.inl h)
  rw [encodeWith_eq_place, slice_or, hopc, BitVec.zero_or]

/-! ### Operands read back from a word -/

/-- An immediate in the range that its field reads back is read back from its code. -/
theorem Layout.readImm_imm {l : Layout} {W : Nat} {v : Int} (hW : l.immWidth = some W) (h : l.immFits v = true) :
    l.readImm (imm W v) = v := by
  have hpos : 0 < W := by cases l <;> cases hW <;> decide
  simp only [Layout.immFits, hW] at h
  unfold Layout.readImm
  cases hs : l.immSigned with
  | true =>
    simp only [hs, fitsSigned, if_true, Bool.and_eq_true, decide_eq_true_eq] at h
    exact BitVec.toInt_ofInt_eq_self hpos h.1 h.2
  | false =>
    simp only [hs, fitsUnsigned, Bool.false_eq_true, if_false, Bool.and_eq_true, decide_eq_true_eq] at h
    exact (toNat_imm W v).trans (Int.emod_eq_of_lt h.1 h.2)

/-- The immediate of a well-formed instruction is read back from its code. -/
theorem Instr.readImm_imm {i : Instr} {W : Nat} {v : Int} (hwf : i.wf = true) (hW : i.kind.layout.immWidth = some W)
    (hv : i.imm? = some v) : i.kind.layout.readImm (imm W v) = v := by
  rw [Instr.wf, hv] at hwf
  exact Layout.readImm_imm hW hwf

/-- The operands read from a well-formed instruction's word are the instruction's. -/
theorem operandsOf_encodeWith {P : Params} (hc : P.condsDistinct = true) {i : Instr} (hwf : i.wf = true) :
    operandsOf P (encodeWith P i) i.kind = some i := by
  have hfield := @slice_encodeWith P i
  cases i
  all_goals simp only [Instr.kind, Kind.layout, Layout.opcLsb] at hfield
  case add | adds | sub | subs | and | ands | orr | eor => simp [operandsOf, hfield, operandBits, Instr.kind]
  case br => cases hpos : P.brRnLsb <;> simp [operandsOf, hfield, operandBits, hpos, Instr.kind]
  case bCond =>
    simpa [operandsOf, hfield, operandBits, Instr.kind, Kind.layout, condOfCode_cond4 hc] using
      Instr.readImm_imm hwf rfl rfl
  all_goals
    simpa [operandsOf, hfield, operandBits, Instr.kind, Kind.layout] using Instr.readImm_imm hwf rfl rfl

/-! ### The kind read back from a word -/

/-- Two masked copies of a word agree where both masks are set. -/
theorem xor_and_masks (w m m' : Word) : ((w &&& m) ^^^ (w &&& m')) &&& m &&& m' = 0#32 := by
  have hbit : ∀ a b c : Bool, (((a && b) ^^ (a && c)) && b && c) = false := by decide
  apply BitVec.eq_of_getLsbD_eq
  intro i _
  simp only [BitVec.getLsbD_and, BitVec.getLsbD_xor, hbit, BitVec.getLsbD_zero]

/-- Under disjoint patterns no word matches the patterns of two kinds (R46). -/
theorem Params.eq_of_wordIsKind {P : Params} (h : P.patternsDisjoint = true) {w : Word} {k k' : Kind}
    (hk : wordIsKind P w k = true) (hk' : wordIsKind P w k' = true) : k = k' := by
  have hall := List.all_eq_true.1 (List.all_eq_true.1 h k k.mem_all) k' k'.mem_all
  rw [← beq_iff_eq.1 hk, ← beq_iff_eq.1 hk', xor_and_masks] at hall
  simpa using hall

/-- Under disjoint patterns the decoder finds an instruction's kind in its word. -/
theorem find?_wordIsKind_encodeWith {P : Params} (h : P.patternsDisjoint = true) (i : Instr) :
    Kind.all.find? (wordIsKind P (encodeWith P i)) = some i.kind := by
  have hkind : wordIsKind P (encodeWith P i) i.kind = true := beq_iff_eq.2 (encodeWith_and_maskOf P i)
  cases hf : Kind.all.find? (wordIsKind P (encodeWith P i)) with
  | none => exact absurd hkind (List.find?_eq_none.1 hf i.kind i.kind.mem_all)
  | some k => rw [P.eq_of_wordIsKind h (List.find?_some hf) hkind]

/-- Decoding a well-formed instruction's word gives the instruction. -/
theorem decodeWith_encodeWith {P : Params} (hp : P.patternsDisjoint = true) (hc : P.condsDistinct = true) {i : Instr}
    (hwf : i.wf = true) : decodeWith P (encodeWith P i) = .ok i := by
  unfold decodeWith
  simp only [find?_wordIsKind_encodeWith hp, operandsOf_encodeWith hc hwf]

/-! ### Bytes (R31, D11) -/

/-- Two adjacent fields side by side are one field. -/
theorem slice_append_slice {lo n mid m : Nat} (w : Word) (h : lo + n = mid) :
    slice mid m w ++ slice lo n w = slice lo (m + n) w := by
  subst h
  apply BitVec.eq_of_getLsbD_eq
  intro i hi
  simp only [slice, BitVec.getLsbD_append, BitVec.getLsbD_extractLsb']
  split_ifs with hin
  · simp [hin, hi]
  · simp [hi, show i - n < m by omega, show lo + n + (i - n) = lo + i by omega]

/-- A word's four bytes, most significant first, are the word. -/
theorem slice_bytes_append (w : Word) : slice 24 8 w ++ slice 16 8 w ++ slice 8 8 w ++ slice 0 8 w = w := by
  rw [slice_append_slice w (by decide), slice_append_slice w (by decide), slice_append_slice w (by decide)]
  exact BitVec.extractLsb'_eq_self

/-- The bytes of a word that decodes, read in the order they were made in, decode to the same instruction. -/
theorem decodeBytes_bytesOfWord {P : Params} {w : Word} {i : Instr} (o : ByteOrder) (rest : List Byte)
    (h : decodeWith P w = .ok i) : decodeBytes P o (bytesOfWord o w ++ rest) = .ok (i, rest) := by
  cases o <;>
    simp only [bytesOfWord, List.cons_append, List.nil_append, decodeBytes, wordOfBytes, slice_bytes_append, h]

/-- Settles O28: the bytes make the word again, and the word decodes. -/
theorem bytesDecodeInEitherOrder : Obligations.BytesDecodeInEitherOrder :=
  fun _ o hp hc _ rest hwf => decodeBytes_bytesOfWord o rest (decodeWith_encodeWith hp hc hwf)

end Sys2Proof
end

section
/-! The ROM and its text (R34 to R37): what a ROM reads, which sequences have one, and that its text determines its
words. -/

namespace Sys2Proof.Machine
open Spec

/-! ### The default word (R34, R35) -/

/-- The ROM's default word spells no instruction: it has ones where BR's layout has zeros (R69, log entry 3). -/
theorem decode_romDefault : decode romDefault = .error (.spellsNoInstruction romDefault) := by rfl

/-- No instruction's word is the default word, since every instruction's word decodes. -/
theorem encode_ne_romDefault (i : Instr) : encode i ≠ romDefault := by
  intro h
  obtain ⟨j, hj⟩ := decode_encode_ok i
  rw [h, decode_romDefault] at hj
  cases hj

/-- Settles O15: the fields are evaluated, and the default word spells no instruction. -/
theorem encoderNeverMakesTheDefaultRomWord : Obligations.EncoderNeverMakesTheDefaultRomWord := by
  refine ⟨by rfl, by decide, by decide, exec_eq_next _, fun i s h => encode_ne_romDefault i ?_⟩
  rw [exec_eq_next] at h
  exact Option.some.inj (congrArg State.word (Host.Outcome.next.inj h))

/-! ### What a ROM reads (R34, R37) -/

theorem romRead_of_le {ws : List Word} (h : ws.length ≤ romCapacity) (a : BitVec 16) :
    romRead ws a = some (ws.getD a.toNat romDefault) := if_pos h

theorem romRead_eq_none_iff (ws : List Word) (a : BitVec 16) : romRead ws a = none ↔ romCapacity < ws.length := by
  simp [romRead]

theorem romText_of_le {ws : List Word} (h : ws.length ≤ romCapacity) :
    romText ws = some (romHeader ++ romLines 0 ws ++ romFooter) := if_pos h

theorem romText_eq_none_iff (ws : List Word) : romText ws = none ↔ romCapacity < ws.length := by
  simp [romText]

/-- Settles O40: the read is a list lookup with the default word where there is none. -/
theorem romReadsWordOrDefault : Obligations.RomReadsWordOrDefault := by
  intro ws a hl
  rw [romRead_of_le hl]
  exact ⟨fun h => by rw [List.getD_eq_getElem _ _ h], fun h => by rw [List.getD_eq_default _ _ h]; rfl⟩

/-- Settles O41: text and read test the same bound. -/
theorem overlongSequenceHasNoRom : Obligations.OverlongSequenceHasNoRom :=
  fun ws => ⟨romText_eq_none_iff ws, romRead_eq_none_iff ws⟩

/-- Appending a word to a sequence leaves the read of every address but the word's. -/
theorem romRead_append_singleton {ws : List Word} (h : ws.length < romCapacity) (w : Word) {a : BitVec 16}
    (ha : a.toNat ≠ ws.length) : romRead (ws ++ [w]) a = romRead ws a := by
  rw [romRead_of_le (by simpa using h), romRead_of_le h.le]
  congr 1
  obtain hlt | hgt := Nat.lt_or_gt_of_ne ha
  · exact List.getD_append _ _ _ _ hlt
  · rw [List.getD_eq_default _ _ hgt.le, List.getD_eq_default _ _ (by simpa using hgt)]

/-- A ROM of encodings reads the encoding with the address as its index, or the default word where there is none. -/
theorem romRead_map_encode {is : List Instr} (h : is.length ≤ romCapacity) (a : BitVec 16) :
    romRead (is.map encode) a = some (romWordOf is a) := by
  rw [romRead_of_le (by simpa using h), List.getD_eq_getElem?_getD, List.getElem?_map, romWordOf]
  cases is[a.toNat]? <;> rfl

/-! ### The print of a word (R31, R36) -/

@[simp] theorem length_binaryDigits (w : Word) : (binaryDigits w).length = 32 := by simp [binaryDigits]

theorem getElem?_binaryDigits (w : Word) {j : Nat} (h : j < 32) :
    (binaryDigits w)[j]? = some (if w.getLsbD (31 - j) then '1' else '0') := by
  simp [binaryDigits, h]

/-- The print determines the word: bit i is read off its character 31 - i. -/
theorem binaryDigits_injective {w w' : Word} (h : binaryDigits w = binaryDigits w') : w = w' := by
  apply BitVec.eq_of_getLsbD_eq
  intro i hi
  have hchar := congrArg (·[31 - i]?) h
  simp only [getElem?_binaryDigits _ (show 31 - i < 32 by omega), show 31 - (31 - i) = i by omega] at hchar
  cases hw : w.getLsbD i <;> cases hw' : w'.getLsbD i <;> simp [hw, hw'] at hchar ⊢

/-- Settles O42, character by character. -/
theorem wordPrintsFromBit31Down : Obligations.WordPrintsFromBit31Down :=
  fun w => ⟨length_binaryDigits w, fun _ => getElem?_binaryDigits w, fun _ => binaryDigits_injective⟩

/-! ### The text of a ROM (R36) -/

/-- A word line is told from the footer by the character after its indentation. -/
theorem romLine_append_ne_romFooter (i : Nat) (w : Word) (t : Text) : romLine i w ++ t ≠ romFooter := by
  intro h
  have hline : (romLine i w ++ t)[12]? = some '1' := by
    simp only [romLine, List.append_assoc]
    rw [List.getElem?_append_left (by decide)]
    decide
  have hfooter : romFooter[12]? = some 'd' := by decide
  rw [h, hfooter] at hline
  exact absurd hline (by decide)

/-- Two texts that begin with word lines of one address have the same word there and the same rest. -/
theorem romLine_append_inj {i : Nat} {w w' : Word} {t t' : Text} (h : romLine i w ++ t = romLine i w' ++ t') :
    w = w' ∧ t = t' := by
  simp only [romLine, List.append_assoc, List.append_cancel_left_eq] at h
  obtain ⟨hdigits, hrest⟩ := List.append_inj h (by simp)
  exact ⟨binaryDigits_injective hdigits, List.append_cancel_left hrest⟩

/-- The word lines before the footer determine the words, line by line. -/
theorem romLines_append_romFooter_inj {ws ws' : List Word} {i : Nat}
    (h : romLines i ws ++ romFooter = romLines i ws' ++ romFooter) : ws = ws' := by
  induction ws generalizing ws' i with
  | nil =>
    cases ws' with
    | nil => rfl
    | cons w' ws' =>
      rw [romLines, romLines, List.append_assoc] at h
      exact absurd h.symm (romLine_append_ne_romFooter i w' _)
  | cons w ws ih =>
    cases ws' with
    | nil =>
      rw [romLines, romLines, List.append_assoc] at h
      exact absurd h (romLine_append_ne_romFooter i w _)
    | cons w' ws' =>
      rw [romLines, romLines, List.append_assoc, List.append_assoc] at h
      obtain ⟨rfl, hrest⟩ := romLine_append_inj h
      rw [ih hrest]

/-- A ROM text is the template around the word lines. -/
theorem eq_of_romText_eq_some {ws : List Word} {t : Text} (h : romText ws = some t) :
    t = romHeader ++ (romLines 0 ws ++ romFooter) := by
  obtain hl | hl := Nat.lt_or_ge romCapacity ws.length
  · rw [(romText_eq_none_iff ws).2 hl] at h; cases h
  · rw [romText_of_le hl, List.append_assoc] at h; exact (Option.some.inj h).symm

/-- Settles O43: the template cancels, and the word lines determine the words. -/
theorem romTextDeterminesTheWords : Obligations.RomTextDeterminesTheWords := by
  intro ws ws' t h h'
  exact romLines_append_romFooter_inj
    (List.append_cancel_left ((eq_of_romText_eq_some h).symm.trans (eq_of_romText_eq_some h')))

end Sys2Proof.Machine
end

section
/-! The system stepped until nothing is pending (R33, R119): each step turns the first pending instruction into the next
collected word, and the words collected in the end make the ROM. -/

namespace Sys2Proof.Machine
open Spec

/-! ### One step -/

/-- Settles O33: the step presents the instruction and collects its word. -/
theorem pendingInstructionBecomesTheNextWord : Obligations.PendingInstructionBecomesTheNextWord := by
  intro s i rest h
  have hwords : (s.present.setWord (encode i)).collect.words = s.words ++ [encode i] := by simp
  refine ⟨_, step_of_pending h, State.present_pending h, rfl, hwords, State.present_roms s, fun hl a ha => ?_⟩
  rw [hwords, romRead_append_singleton hl _ ha]

/-- Settles O36: a step with nothing pending only puts the port-level word on the output port, where it then stands. -/
theorem encodingTwiceGivesTheSame : Obligations.EncodingTwiceGivesTheSame := by
  intro s t hp ht
  obtain ⟨i, hi, hexec⟩ := evaluate_next_cases (step_of_nil hp ▸ ht)
  rw [exec_eq_next] at hexec
  cases hexec
  rw [step_of_nil (s := s.setWord (encode i)) hp, evaluate_of_ofPorts (s := s.setWord (encode i)) hi,
    State.setWord_setWord]

/-! ### Many steps -/

theorem State.present_draws {s : State} {i : Instr} {rest : List Instr} (h : s.pending = i :: rest) :
    s.present.draws = s.draws + 1 := by
  rw [State.present_of_cons h]

/-- What has become of state s when the first k of its pending instructions have been encoded one by one (log entry 9). -/
structure EncodedFirst (k : Nat) (s t : State) : Prop where
  pending : t.pending = s.pending.drop k
  words : t.words = s.words ++ (s.pending.take k).map encode
  roms : t.roms = s.roms
  draws : t.draws = s.draws + k

theorem EncodedFirst.zero (s : State) : EncodedFirst 0 s s := ⟨rfl, by simp, rfl, rfl⟩

/-- A step that encodes the next instruction, with k more after it, is k + 1 in all. -/
theorem EncodedFirst.succ {k : Nat} {s t : State} {i : Instr} {rest : List Instr} (hp : s.pending = i :: rest)
    (h : EncodedFirst k (s.present.setWord (encode i)).collect t) : EncodedFirst (k + 1) s t where
  pending := by rw [h.pending, hp]; exact congrArg _ (State.present_pending hp)
  words := by
    rw [h.words, hp]
    simp [State.present_pending hp]
  roms := h.roms.trans (State.present_roms s)
  draws := by
    rw [h.draws, State.collect_draws, State.setWord_draws, State.present_draws hp]
    omega

/-- As many steps as asked for, if that many instructions are pending, encode that many. -/
theorem run_encodedFirst {k : Nat} {s : State} (h : k ≤ s.pending.length) :
    ∃ t : State, Host.Core.run Sys2Proof.core k s = .next t ∧ EncodedFirst k s t := by
  induction k generalizing s with
  | zero => exact ⟨s, rfl, .zero s⟩
  | succ k ih =>
    obtain ⟨i, rest, hp⟩ := List.exists_cons_of_length_pos (Nat.lt_of_lt_of_le k.succ_pos h)
    have hk : k ≤ (s.present.setWord (encode i)).collect.pending.length := by
      rw [State.collect_pending, State.setWord_pending, State.present_pending hp]
      simpa [hp] using h
    obtain ⟨t, hrun, ht⟩ := ih hk
    refine ⟨t, ?_, .succ hp ht⟩
    simp only [Host.Core.run, Host.Check.core_step, step_of_pending hp]
    exact hrun

/-- Settles O39: the run that takes them all. -/
theorem pendingInstructionsAreAllEncodedInOrder : Obligations.PendingInstructionsAreAllEncodedInOrder := by
  intro s
  obtain ⟨t, hrun, ht⟩ := run_encodedFirst (le_refl s.pending.length)
  refine ⟨t, hrun, ?_, ?_, ht.roms, ht.draws⟩
  · rw [ht.pending, List.drop_length]
  · rw [ht.words, List.take_length]

/-! ### Generating a ROM -/

theorem State.generate_eq_some_iff (s t : State) (a : BitVec 16) : s.generate a = some t ↔
    s.pending = [] ∧ s.words.length ≤ romCapacity ∧
      t = { s with roms := s.roms ++ [{ contents := s.words, address := a }] } := by
  refine ⟨State.generate_cases, ?_⟩
  rintro ⟨hp, hl, rfl⟩
  exact State.generate_of_nil a hp hl

/-- No ROM is generated while an instruction is pending (R117, log entry 25). -/
theorem State.generate_of_pending {s : State} (a : BitVec 16) (h : s.pending ≠ []) : s.generate a = none :=
  Option.eq_none_iff_forall_ne_some.2 fun _ ht => h (State.generate_cases ht).1

/-- No ROM is generated of more words than there are addresses (R37). -/
theorem State.generate_of_overlong {s : State} (a : BitVec 16) (h : romCapacity < s.words.length) :
    s.generate a = none :=
  Option.eq_none_iff_forall_ne_some.2 fun _ ht => Nat.not_lt.2 (State.generate_cases ht).2.1 h

/-- A driven address is what the ROM's address input carries. -/
theorem State.driveAddress_address (s : State) (n : Nat) (a : BitVec 16) :
    ((s.driveAddress n a).roms[n]?).map Rom.address = (s.roms[n]?).map fun _ => a := by
  simp only [State.driveAddress, List.getElem?_modify]
  cases s.roms[n]? <;> simp

theorem step_roms {s t : State} (h : step s = .next t) : t.roms = s.roms := by
  obtain ⟨_, w, _, rfl⟩ | ⟨i, _, _, rfl⟩ := step_next_word_cases h
  · rfl
  · exact State.present_roms s

theorem exec_roms {i : Instr} {s t : State} (h : exec i s = .next t) : t.roms = s.roms := by
  rw [exec_eq_next] at h
  cases h
  rfl

/-- Settles O54: the run leaves the encodings as the collected words, so generating asks for their number only; before its
end an instruction is pending. -/
theorem generatedRomReadsTheEncodings : Obligations.GeneratedRomReadsTheEncodings := by
  intro s is a
  constructor
  · intro k t hk hrun
    obtain ⟨t', hrun', ht⟩ := run_encodedFirst (s := s.load is) (k := k) hk.le
    cases hrun.symm.trans hrun'
    refine State.generate_of_pending a ?_
    rw [ht.pending, State.load_pending]
    exact List.drop_eq_nil_iff.not.2 (Nat.not_le.2 hk)
  · obtain ⟨t, hrun, hp, hw, hr, _⟩ := pendingInstructionsAreAllEncodedInOrder (s.load is)
    rw [State.load_words, State.load_pending, List.nil_append] at hw
    have hlen : t.words.length = is.length := by rw [hw, List.length_map]
    refine ⟨t, hrun, fun hl => State.generate_of_overlong a (hlen ▸ hl), fun hl => ?_⟩
    refine ⟨_, ⟨t.words, a⟩, State.generate_of_nil a hp (hlen ▸ hl), by rw [hr]; rfl, ?_⟩
    simp only [Rom.out, hw]
    exact ⟨romRead_map_encode hl a, romRead_map_encode hl⟩

end Sys2Proof.Machine
end

section
/-! The host's program assembler (R33, R115 to R118): what it makes of a program's lines, that the system stepped makes
the same, and that nothing of all this touches a generated ROM. -/

namespace Sys2Proof.Machine
open Spec

/-! ### Classified lines -/

/-- No line number is reported exactly when no line is an Error. -/
theorem errorLines_eq_nil_iff (n : Nat) (ls : List AsmLine) : errorLines n ls = [] ↔ .error ∉ ls := by
  induction ls generalizing n with
  | nil => simp [errorLines]
  | cons l ls ih => cases l <;> simp [errorLines, ih]

theorem errorLines_classify_of_noError {H : HostParams} {lines : List Text}
    (h : ∀ l ∈ lines, parseLine H l ≠ .error) : errorLines 0 (classify H lines) = [] := by
  rw [errorLines_eq_nil_iff, classify, List.mem_map]
  rintro ⟨l, hl, he⟩
  exact h l hl he

/-- The retained instructions are those of the lines that are instructions, in order. -/
theorem retained_classify (H : HostParams) (lines : List Text) :
    retained (classify H lines) = lines.filterMap (instrOfLine H) := by
  induction lines with
  | nil => rfl
  | cons l lines ih =>
    rw [classify] at ih
    cases hl : parseLine H l <;> simp [classify, retained, instrOfLine, hl, ih]

/-! ### The host's result, and taking a program up -/

/-- With an Error line the host's result is the list of their numbers. -/
theorem assembleWith_of_errorLines {H : HostParams} {lines : List Text} {n : Nat} {ns : List Nat} (P : Params)
    (h : errorLines 0 (classify H lines) = n :: ns) : assembleWith P H lines = .errors (n :: ns) := by
  simp only [assembleWith, h]

/-- With no Error line the host's result is the ROM text of the retained instructions' words, or the refusal of their
number. -/
theorem assembleWith_of_noError {H : HostParams} {lines : List Text} (P : Params)
    (h : errorLines 0 (classify H lines) = []) : assembleWith P H lines =
      (romText ((retained (classify H lines)).map (encodeWith P))).elim
        (.refusedTooManyWords (retained (classify H lines)).length) .rom := by
  simp only [assembleWith, h, List.length_map]
  cases romText ((retained (classify H lines)).map (encodeWith P)) <;> rfl

theorem encodeWith_spec : encodeWith Params.spec = encode := rfl

theorem State.loadProgram_of_errorLines {H : HostParams} {lines : List Text} {n : Nat} {ns : List Nat} (s : State)
    (h : errorLines 0 (classify H lines) = n :: ns) : s.loadProgram H lines = none := by
  simp only [State.loadProgram, h]

theorem State.loadProgram_of_noError {H : HostParams} {lines : List Text} (s : State)
    (h : errorLines 0 (classify H lines) = []) :
    s.loadProgram H lines = some (s.load (retained (classify H lines))) := by
  simp only [State.loadProgram, h]

/-- A program is taken up only with no Error line, and then its retained instructions are. -/
theorem State.loadProgram_cases {H : HostParams} {lines : List Text} {s t : State}
    (h : s.loadProgram H lines = some t) :
    errorLines 0 (classify H lines) = [] ∧ t = s.load (retained (classify H lines)) := by
  cases he : errorLines 0 (classify H lines) with
  | nil => exact ⟨rfl, (Option.some.inj ((s.loadProgram_of_noError he).symm.trans h)).symm⟩
  | cons n ns => rw [s.loadProgram_of_errorLines he] at h; cases h

/-- Settles O44: with no Error line nothing is gated, and words that fit have a text. -/
theorem retainedInstructionsBecomeTheRom : Obligations.RetainedInstructionsBecomeTheRom := by
  intro H lines hlines
  refine ⟨retained_classify H lines, fun hl => ?_⟩
  have hfits : ((lines.filterMap (instrOfLine H)).map encode).length ≤ romCapacity := by rwa [List.length_map]
  refine ⟨_, romText_of_le hfits, ?_⟩
  rw [assembleWith_of_noError _ (errorLines_classify_of_noError hlines), retained_classify, encodeWith_spec,
    romText_of_le hfits, Option.elim_some]

/-- Settles O46: the run of the program taken up collects the words whose text, or number, is the host's result. -/
theorem machineProducesTheAssembledRom : Obligations.MachineProducesTheAssembledRom := by
  intro H lines s
  constructor
  · intro s₀ h
    obtain ⟨he, rfl⟩ := State.loadProgram_cases h
    obtain ⟨t, hrun, hp, hw, _⟩ := pendingInstructionsAreAllEncodedInOrder (s.load (retained (classify H lines)))
    rw [State.load_words, State.load_pending, List.nil_append] at hw
    refine ⟨t, hrun, hp, ?_⟩
    rw [assembleWith_of_noError _ he, encodeWith_spec, hw, List.length_map]
    cases romText ((retained (classify H lines)).map encode) <;> rfl
  · cases he : errorLines 0 (classify H lines) with
    | nil =>
      rw [s.loadProgram_of_noError he, assembleWith_of_noError _ he]
      cases romText ((retained (classify H lines)).map (encodeWith Params.spec)) <;> simp
    | cons n ns => simp [s.loadProgram_of_errorLines he, assembleWith_of_errorLines Params.spec he]

/-- Settles O53, by what each operation does to the ROMs. -/
theorem generatedRomsAreNeverChanged : Obligations.GeneratedRomsAreNeverChanged := by
  refine ⟨fun _ _ => step_roms, fun _ _ _ => exec_roms, fun s _ _ => ⟨rfl, s.present_roms, rfl, rfl⟩,
    fun s t H lines h => ?_, fun s n a => ⟨s.driveAddress_contents n a, s.driveAddress_address n a⟩,
    State.generate_eq_some_iff⟩
  obtain ⟨_, rfl⟩ := State.loadProgram_cases h
  rfl

end Sys2Proof.Machine
end

section
/-! Encoding what was decoded gives the word back, bit for bit (R72, R73): a word is its kind's fixed bits together with
its operand fields, and each operand read from a field has that field as its code. -/

namespace Sys2Proof

/-- Settles O23: the decoder finds the instruction's kind in its word, then reads back every operand. -/
theorem decodingAnEncodedInstruction : Obligations.DecodingAnEncodedInstruction :=
  fun _ hp hc _ hwf => decodeWith_encodeWith hp hc hwf

/-! ### Immediates read from a field (R51, log entry 7) -/

/-- What an immediate field reads back as has the field as its code. -/
@[simp] theorem imm_readImm (l : Layout) {W : Nat} (bits : BitVec W) : imm W (l.readImm bits) = bits := by
  unfold Layout.readImm
  split
  · exact BitVec.ofInt_toInt
  · simp [imm]

/-- What an immediate field reads back as lies in the range that it reads back. -/
theorem immFits_readImm {l : Layout} {W : Nat} (hW : l.immWidth = some W) (bits : BitVec W) :
    l.immFits (l.readImm bits) = true := by
  simp only [Layout.immFits, hW, Layout.readImm]
  cases l.immSigned with
  | true => simpa [fitsSigned] using ⟨BitVec.le_toInt bits, BitVec.toInt_lt⟩
  | false => simpa [fitsUnsigned] using by exact_mod_cast bits.isLt

/-- An instruction whose immediate is what its field reads back as is well formed. -/
theorem Instr.wf_of_imm?_eq_readImm {i : Instr} {W : Nat} {bits : BitVec W}
    (hv : i.imm? = some (i.kind.layout.readImm bits)) (hW : i.kind.layout.immWidth = some W) : i.wf = true := by
  rw [Instr.wf, hv]
  exact immFits_readImm hW bits

/-! ### A word as its fixed bits and its fields (R73) -/

/-- A field put back in its place is the word cut down to the field's bits. -/
theorem place_slice {lo n : Nat} (h : lo + n ≤ 32) (w : Word) :
    place lo (slice lo n w) = w &&& place lo (BitVec.allOnes n) := by
  apply BitVec.eq_of_getLsbD_eq
  intro i _
  rw [BitVec.getLsbD_and, getLsbD_place lo _ h, getLsbD_place lo _ h]
  by_cases hi : lo ≤ i ∧ i < lo + n
  · simp [slice, hi, show i - lo < n by omega, show lo + (i - lo) = i by omega]
  · simp [hi]

/-- A condition's 4-bit code in its 5-bit field is the code alone, bit 4 being 0 (R49, R67). -/
theorem place_zext5 (code : BitVec 4) : place 0 (code.setWidth 5) = place 0 code := by simp [place]

theorem and_eq_self_of_eq_allOnes {m : Word} (h : m = BitVec.allOnes 32) (w : Word) : w &&& m = w := by
  rw [h, BitVec.and_allOnes]

theorem cond4_of_condOfCode {P : Params} {code : BitVec 4} {c : Cond} (h : condOfCode P code = some c) :
    cond4 P c = code := by
  simpa using List.find?_some h

/-- The operands read from a word of kind k make an instruction of kind k. -/
theorem kind_of_operandsOf {P : Params} {w : Word} {k : Kind} {i : Instr} (h : operandsOf P w k = some i) :
    i.kind = k := by
  cases k
  case bCond => obtain ⟨c, _, rfl⟩ := Option.map_eq_some_iff.1 h; rfl
  all_goals cases h; rfl

/-- The operands read from a word make a well-formed instruction. -/
theorem wf_of_operandsOf {P : Params} {w : Word} {k : Kind} {i : Instr} (h : operandsOf P w k = some i) :
    i.wf = true := by
  cases k
  case add | adds | sub | subs | and | ands | orr | eor | br => cases h; rfl
  case bCond => obtain ⟨c, _, rfl⟩ := Option.map_eq_some_iff.1 h; exact Instr.wf_of_imm?_eq_readImm rfl rfl
  all_goals cases h; exact Instr.wf_of_imm?_eq_readImm rfl rfl

/-- The operands read from a word have its bits outside the fixed ones, so with those they are the word. -/
theorem and_maskOf_or_operandBits {P : Params} {w : Word} {k : Kind} {i : Instr} (h : operandsOf P w k = some i) :
    w &&& maskOf P k ||| operandBits P i = w := by
  cases k
  case bCond =>
    obtain ⟨c, hc, rfl⟩ := Option.map_eq_some_iff.1 h
    simp only [operandBits, maskOf, Kind.layout, Layout.mask, cond5, place_zext5, cond4_of_condOfCode hc, imm_readImm,
      place_slice, Nat.reduceAdd, Nat.reduceLeDiff, ← BitVec.and_or_distrib_left]
    exact and_eq_self_of_eq_allOnes (by decide) w
  case br =>
    cases h
    cases hpos : P.brRnLsb
    all_goals
      simp only [operandBits, maskOf, Kind.layout, Layout.mask, hpos, reg5_regOfCode, place_slice, Nat.reduceAdd,
        Nat.reduceLeDiff, ← BitVec.and_or_distrib_left]
      exact and_eq_self_of_eq_allOnes (by decide) w
  all_goals
    cases h
    simp only [operandBits, maskOf, Kind.layout, Layout.mask, reg5_regOfCode, shift2_shiftOfCode, imm_readImm,
      place_slice, Nat.reduceAdd, Nat.reduceLeDiff, ← BitVec.and_or_distrib_left]
    exact and_eq_self_of_eq_allOnes (by decide) w

/-- What the decoder answers is read from a kind whose pattern the word matches. -/
theorem decodeWith_ok_cases {P : Params} {w : Word} {i : Instr} (h : decodeWith P w = .ok i) :
    ∃ k, w &&& maskOf P k = matchOf P k ∧ operandsOf P w k = some i := by
  unfold decodeWith at h
  split at h
  · cases h
  · next k hk =>
    split at h
    · cases h
    · next j hj => cases h; exact ⟨k, by simpa [wordIsKind] using List.find?_some hk, hj⟩

/-- Settles O24: the word is its fixed bits, which the pattern gives, and its fields, which the operands give. -/
theorem encodingADecodedWord : Obligations.EncodingADecodedWord := by
  intro P w i h
  obtain ⟨k, hmatch, hops⟩ := decodeWith_ok_cases h
  refine ⟨wf_of_operandsOf hops, ?_⟩
  rw [encodeWith, kind_of_operandsOf hops, ← hmatch, and_maskOf_or_operandBits hops]

end Sys2Proof
end

section
/-! The words of the meanings (R61 to R69): each layout from bit 31 down, which bits an operand is in, and that they
are the table encoder's words. -/

namespace Sys2Proof

theorem reg5_injective : Function.Injective reg5 := Function.LeftInverse.injective regOfCode_reg5

end Sys2Proof

namespace Sys2Proof.Machine
open Spec

/-! ### Each layout from bit 31 down -/

/-- Settles O5, the pseudocode being the layout. -/
theorem rFormatWords : Obligations.RFormatWords := by
  intro rd rn rm s
  refine ⟨?_, ?_, ?_, ?_, ?_, ?_, ?_, ?_⟩
  all_goals exact emit_of_eq (packR_concat _ _ _ _) s

/-- Settles O6, the pseudocode being the layout. -/
theorem iFormatWords : Obligations.IFormatWords := by
  intro rd rn v s
  refine ⟨?_, ?_, ?_, ?_, ?_, ?_, ?_, ?_⟩
  all_goals exact emit_of_eq (packI_concat _ _ _ _) s

/-- Settles O7, the pseudocode being the layout. -/
theorem dFormatWords : Obligations.DFormatWords := by
  intro rt rn off s
  refine ⟨?_, ?_, ?_, ?_⟩
  all_goals exact emit_of_eq (packD_concat _ _ _ _) s

/-- Settles O8, the pseudocode being the layout. -/
theorem imFormatWords : Obligations.ImFormatWords :=
  fun _ _ _ s => ⟨emit_of_eq (packIm_concat _ _ _ _) s, emit_of_eq (packIm_concat _ _ _ _) s⟩

/-- Settles O9, the pseudocode being the layout. -/
theorem shiftFormatWords : Obligations.ShiftFormatWords :=
  fun _ _ _ s => ⟨emit_of_eq (packShift_concat _ _ _ _) s, emit_of_eq (packShift_concat _ _ _ _) s⟩

/-- Settles O10, the pseudocode being the layout. -/
theorem cbFormatWords : Obligations.CbFormatWords :=
  fun _ _ s => ⟨emit_of_eq (packCb_concat _ _ _) s, emit_of_eq (packCb_concat _ _ _) s⟩

/-- Settles O11, the pseudocode being the layout. -/
theorem bCondWords : Obligations.BCondWords :=
  fun _ _ s => emit_of_eq (packBCond_concat _ _ _) s

/-- Settles O12, the pseudocode being the layout. -/
theorem bFormatWords : Obligations.BFormatWords :=
  fun _ s => ⟨emit_of_eq (packB_concat _ _) s, emit_of_eq (packB_concat _ _) s⟩

/-! ### The two readings of BR's layout (R69, log entry 3) -/

/-- R69 with `BR_RN_LSB = 5` as placed fields. -/
theorem packBr_at5_eq_place (opc : BitVec 11) (rn : Reg) :
    packBr .lsb5 opc rn = place 21 opc ||| place 5 (reg5 rn) := by
  simp [packBr, setField_of_fieldClear, fieldClear_place]

/-- The two readings agree for X0 alone: the low field holds the register's code under one and 0 under the other. -/
theorem packBr_lsb0_eq_lsb5_iff (opc : BitVec 11) (rn : Reg) :
    packBr .lsb0 opc rn = packBr .lsb5 opc rn ↔ rn = .x 0 := by
  rw [packBr_eq_place, packBr_at5_eq_place]
  constructor
  · intro h
    have hlow := congrArg (slice 0 5) h
    simp only [slice_or, slice_place, slice_place_of_disjoint, Nat.reduceAdd, Nat.reduceLeDiff, true_or,
      BitVec.zero_or] at hlow
    exact reg5_injective hlow
  · rintro rfl
    rfl

/-- Settles O13, by what the two readings place where. -/
theorem brWordsAndTheOtherReading : Obligations.BrWordsAndTheOtherReading :=
  ⟨fun _ s => emit_of_eq (packBr_concat _ _) s, packBr_lsb0_eq_lsb5_iff, by decide⟩

/-! ### An operand's field (R60) -/

/-- Two values placed in one field agree outside it. -/
theorem agreeOutside_place {lo n : Nat} (h : lo + n ≤ 32) (v v' : BitVec n) :
    AgreeOutside lo n (place lo v) (place lo v') := by
  intro i hi
  rw [getLsbD_place lo v h, getLsbD_place lo v' h, if_neg hi, if_neg hi]

theorem agreeOutside_or_left {lo n : Nat} {u u' : Word} (h : AgreeOutside lo n u u') (w : Word) :
    AgreeOutside lo n (u ||| w) (u' ||| w) := by
  intro i hi
  rw [BitVec.getLsbD_or, BitVec.getLsbD_or, h i hi]

theorem agreeOutside_or_right {lo n : Nat} {w w' : Word} (u : Word) (h : AgreeOutside lo n w w') :
    AgreeOutside lo n (u ||| w) (u ||| w') := by
  rw [BitVec.or_comm u, BitVec.or_comm u]
  exact agreeOutside_or_left h u

/-- One operand beside the opcode. -/
theorem agreeOutside_field {a l : Nat} (ha : a + l ≤ 32) (u : Word) (x x' : BitVec l) :
    AgreeOutside a l (u ||| place a x) (u ||| place a x') :=
  agreeOutside_or_right u (agreeOutside_place ha x x')

/-- Two operands beside the opcode, each changed on its own. -/
theorem agreeOutside_twoFields {a l b m : Nat} (ha : a + l ≤ 32) (hb : b + m ≤ 32) (u : Word) (x x' : BitVec l)
    (y y' : BitVec m) :
    AgreeOutside b m (u ||| (place a x ||| place b y)) (u ||| (place a x ||| place b y')) ∧
    AgreeOutside a l (u ||| (place a x ||| place b y)) (u ||| (place a x' ||| place b y)) :=
  ⟨agreeOutside_or_right u (agreeOutside_field hb _ y y'),
    agreeOutside_or_right u (agreeOutside_or_left (agreeOutside_place ha x x') _)⟩

/-- Three operands beside the opcode, each changed on its own. -/
theorem agreeOutside_threeFields {a l b m c n : Nat} (ha : a + l ≤ 32) (hb : b + m ≤ 32) (hc : c + n ≤ 32) (u : Word)
    (x x' : BitVec l) (y y' : BitVec m) (z z' : BitVec n) :
    AgreeOutside c n (u ||| (place a x ||| place b y ||| place c z)) (u ||| (place a x ||| place b y ||| place c z')) ∧
    AgreeOutside b m (u ||| (place a x ||| place b y ||| place c z)) (u ||| (place a x ||| place b y' ||| place c z)) ∧
    AgreeOutside a l (u ||| (place a x ||| place b y ||| place c z)) (u ||| (place a x' ||| place b y ||| place c z)) :=
  ⟨agreeOutside_or_right u (agreeOutside_field hc _ z z'),
    agreeOutside_or_right u (agreeOutside_or_left (agreeOutside_field hb _ y y') _),
    agreeOutside_or_right u (agreeOutside_or_left (agreeOutside_or_left (agreeOutside_place ha x x') _) _)⟩

/-- B.cond's condition field as its low four bits alone (R67). -/
theorem packBCond_eq_place4 (opc : BitVec 8) (cc : BitVec 4) (addr : Int) :
    packBCond opc cc addr = place 24 opc ||| (place 5 (imm 19 addr) ||| place 0 cc) := by
  rw [packBCond_eq_place, place_zext5]

/-- Settles O16, layout by layout: three operands, two or one beside the opcode. -/
theorem fieldsAreIndependent : Obligations.FieldsAreIndependent := by
  refine ⟨fun _ _ _ _ _ => ?_, fun _ _ _ _ _ _ => ?_, fun _ _ _ _ _ _ => ?_, fun _ _ _ _ _ _ _ => ?_,
    fun _ _ _ _ _ _ => ?_, fun _ _ _ _ _ => ?_, fun _ _ _ _ _ => ?_, fun _ _ _ => ?_, fun _ _ _ => ?_⟩
  · simp only [packR_eq_place]
    exact agreeOutside_threeFields (by decide) (by decide) (by decide) _ _ _ _ _ _ _
  · simp only [packI_eq_place]
    exact agreeOutside_threeFields (by decide) (by decide) (by decide) _ _ _ _ _ _ _
  · simp only [packD_eq_place]
    exact agreeOutside_threeFields (by decide) (by decide) (by decide) _ _ _ _ _ _ _
  · simp only [packIm_eq_place]
    exact agreeOutside_threeFields (by decide) (by decide) (by decide) _ _ _ _ _ _ _
  · simp only [packShift_eq_place]
    exact agreeOutside_threeFields (by decide) (by decide) (by decide) _ _ _ _ _ _ _
  · simp only [packCb_eq_place]
    exact agreeOutside_twoFields (by decide) (by decide) _ _ _ _ _
  · simp only [packBCond_eq_place4]
    exact agreeOutside_twoFields (by decide) (by decide) _ _ _ _ _
  · simp only [packB_eq_place]
    exact agreeOutside_field (by decide) _ _ _
  · simp only [packBr_eq_place, packBr_at5_eq_place]
    exact ⟨agreeOutside_field (by decide) _ _ _, agreeOutside_field (by decide) _ _ _⟩

/-! ### The table encoder's words (R45, R58, R70) -/

/-- Settles O17: the immediates have one code, and the word depends on the code only. -/
theorem truncationLaw : Obligations.TruncationLaw := by
  intro i W j s hW
  have hword : encode (i.mapImm fun v => v + j * 2 ^ W) = encode i := by
    refine encodeWith_mapImm fun W' v hW' => ?_
    obtain rfl : W = W' := Option.some.inj (hW.symm.trans hW')
    exact (imm_eq_imm_iff_dvd_sub W _ _).2 ⟨j, by ring⟩
  rw [exec_eq_next, exec_eq_next, hword]

/-- Settles O19, which is what an instruction does. -/
theorem meaningsAgreeWithTheTable : Obligations.MeaningsAgreeWithTheTable := exec_eq_next

/-- Settles O21, the operands reaching no bit of the opcode field. -/
theorem opcodeFieldHoldsTheLiteral : Obligations.OpcodeFieldHoldsTheLiteral := slice_opc_encodeWith

end Sys2Proof.Machine
end

section
/-! Which instructions have one word, and which words are instructions' (R46, R59, R72). -/

namespace Sys2Proof

/-- The canonical form of an instruction has its word (R51). -/
theorem encodeWith_canonical (P : Params) (i : Instr) : encodeWith P i.canonical = encodeWith P i := by
  unfold Instr.canonical
  cases hW : i.kind.layout.immWidth with
  | none => rfl
  | some W =>
    refine encodeWith_mapImm fun W' v hW' => ?_
    cases hW.symm.trans hW'
    exact imm_readImm _ _

theorem Instr.imm?_mapImm (f : Int → Int) (i : Instr) : (i.mapImm f).imm? = i.imm?.map f := by cases i <;> rfl

/-- A canonical form is well formed. -/
theorem Instr.wf_canonical (i : Instr) : i.canonical.wf = true := by
  unfold Instr.canonical
  cases hW : i.kind.layout.immWidth with
  | none => cases i <;> cases hW <;> rfl
  | some W =>
    simp only [Instr.wf, Instr.imm?_mapImm, Instr.mapImm_kind]
    cases i.imm? with
    | none => rfl
    | some v => exact immFits_readImm hW (imm W v)

theorem patternsDisjoint_spec : Params.spec.patternsDisjoint = true := by decide +kernel

/-- Every word the block makes decodes to its instruction's canonical form. -/
theorem decode_encode (i : Instr) : decode (encode i) = .ok i.canonical := by
  rw [encode, ← encodeWith_canonical]
  exact decodeWith_encodeWith patternsDisjoint_spec condsDistinct_spec i.wf_canonical

/-- Two instructions have one word exactly when their canonical forms are equal. -/
theorem encode_eq_encode_iff (i j : Instr) : encode i = encode j ↔ i.canonical = j.canonical := by
  constructor <;> intro h
  · have hdec := decode_encode i
    rw [h, decode_encode] at hdec
    exact (Except.ok.inj hdec).symm
  · rw [encode, encode, ← encodeWith_canonical, h, encodeWith_canonical]

/-- A word that matches no kind's pattern spells no instruction. -/
theorem decode_of_no_wordIsKind {w : Word} (h : ∀ k, w &&& maskOf Params.spec k ≠ matchOf Params.spec k) :
    decode w = .error (.spellsNoInstruction w) := by
  have hnone : Kind.all.find? (wordIsKind Params.spec w) = none :=
    List.find?_eq_none.2 fun k _ hk => h k (beq_iff_eq.1 hk)
  rw [decode, decodeWith, hnone]

/-- Settles O22, by evaluation over the pairs of kinds and of conditions. -/
theorem defaultPatternsAreDisjoint : Obligations.DefaultPatternsAreDisjoint :=
  ⟨patternsDisjoint_spec, condsDistinct_spec⟩

end Sys2Proof

namespace Sys2Proof.Machine

/-- Settles O25: the block gives both one state when their words are equal. -/
theorem wordsCollideExactlyOnEqualFields : Obligations.WordsCollideExactlyOnEqualFields := by
  intro i j s
  rw [exec_eq_next, exec_eq_next, ← encode_eq_encode_iff]
  constructor <;> intro h
  · exact Option.some.inj (congrArg State.word (Host.Outcome.next.inj h))
  · rw [h]

/-- Settles O26: a word decodes exactly when its kind is found, and the block's words decode. -/
theorem decoderAcceptsExactlyTheSubset : Obligations.DecoderAcceptsExactlyTheSubset := by
  refine ⟨fun w => ⟨fun ⟨i, hi⟩ => ?_, fun ⟨k, hk⟩ => decode_of_wordIsKind hk⟩, fun w => decode_of_no_wordIsKind,
    fun i s => ⟨_, _, exec_eq_next i s, rfl, decode_encode i⟩⟩
  obtain ⟨k, hk, _⟩ := decodeWith_ok_cases hi
  exact ⟨k, hk⟩

end Sys2Proof.Machine
end

section
/-! The operand codes (R47 to R51), the table of literals (R45), and the readers of table words and of bytes (R71). -/

namespace Sys2Proof

/-- Settles O1: codes and registers are one to one, by the reading back. -/
theorem registerCodesAreOrdinals : Obligations.RegisterCodesAreOrdinals := by
  refine ⟨by decide, rfl, fun _ _ h => reg5_injective h, fun c => ⟨regOfCode c, reg5_regOfCode c⟩⟩

/-- Settles O4: the codes are evaluated, and bit 4 is above the condition's 4-bit code. -/
theorem shiftAndConditionCodes : Obligations.ShiftAndConditionCodes := by
  refine ⟨fun s => ?_, fun _ _ h => Params.condOrdinal_injective condsDistinct_spec h, fun P c => ?_⟩
  · cases s <;> rfl
  · simp [cond5]

/-- A bit of a natural number as the remainder that R47 writes. -/
theorem testBit_eq_decide (n i : Nat) : n.testBit i = decide ((n >>> i) % 2 = 1) := by
  rw [Nat.testBit_eq_decide_div_mod_eq, Nat.shiftRight_eq_div_pow]

theorem getLsbD_ofNat_of_lt {W i : Nat} (n : Nat) (h : i < W) :
    (BitVec.ofNat W n).getLsbD i = decide ((n >>> i) % 2 = 1) := by
  rw [BitVec.getLsbD_ofNat, decide_eq_true h, Bool.true_and, testBit_eq_decide]

/-- Truncation keeps the low bits of a two's complement integer: of a negative one, the complements of the bits of the
natural number that it is the complement of. -/
theorem getLsbD_imm {W i : Nat} (v : Int) (h : i < W) : (imm W v).getLsbD i = decide ((v >>> i) % 2 = 1) := by
  cases v with
  | ofNat n =>
    have hshift : (Int.ofNat n >>> i) % 2 = 1 ↔ (n >>> i) % 2 = 1 := by
      rw [show Int.ofNat n >>> i = ((n >>> i : Nat) : Int) from rfl]
      omega
    rw [decide_eq_decide.2 hshift, imm, Int.ofNat_eq_natCast, BitVec.ofInt_natCast, getLsbD_ofNat_of_lt n h]
  | negSucc n =>
    have hshift : (Int.negSucc n >>> i) % 2 = 1 ↔ ¬ (n >>> i) % 2 = 1 := by
      rw [show Int.negSucc n >>> i = Int.negSucc (n >>> i) from rfl]
      omega
    rw [decide_eq_decide.2 hshift, decide_not, imm, BitVec.ofInt_negSucc_eq_not_ofNat, BitVec.getLsbD_not,
      getLsbD_ofNat_of_lt n h, decide_eq_true h, Bool.true_and]

/-- Settles O2, codec by codec. -/
theorem codecBitsAreValueBits : Obligations.CodecBitsAreValueBits := by
  refine ⟨fun r i hi => getLsbD_ofNat_of_lt _ hi, fun P c i hi => ?_, fun s i hi => getLsbD_ofNat_of_lt _ hi,
    fun W v i hi => getLsbD_imm v hi⟩
  rw [← testBit_eq_decide, BitVec.testBit_toNat]
  simp [cond5, cond4, hi]

/-- Settles O14, by evaluation. -/
theorem defaultOpcodeTable : Obligations.DefaultOpcodeTable := by
  unfold Obligations.DefaultOpcodeTable
  decide

/-- Settles O27, by evaluation of each word. -/
theorem workedWordsDecode : Obligations.WorkedWordsDecode :=
  ⟨by rfl, by rfl, by rfl, by rfl, by rfl, by rfl, by rfl, by rfl, by rfl, by rfl⟩

/-- A table word is an instruction only with 32 bits, and then the one that its word decodes to. -/
theorem decodeTableWord_cases {nbits w : Nat} {i : Instr} (h : decodeTableWord nbits w = some i) :
    nbits = 32 ∧ w < 2 ^ 32 ∧ decode (BitVec.ofNat 32 w) = .ok i := by
  unfold decodeTableWord at h
  split at h
  · next hlen =>
    obtain ⟨rfl, hw⟩ := hlen
    split at h
    · next hdec => cases h; exact ⟨rfl, hw, hdec⟩
    · cases h
  · cases h

/-- Bytes that decode are four of a word, and those after them. -/
theorem decodeBytes_cases {P : Params} {o : ByteOrder} {bs rest : List Byte} {i : Instr}
    (h : decodeBytes P o bs = .ok (i, rest)) : ∃ b0 b1 b2 b3, bs = b0 :: b1 :: b2 :: b3 :: rest := by
  unfold decodeBytes at h
  split at h
  · next b0 b1 b2 b3 tl =>
    split at h
    · cases h; exact ⟨b0, b1, b2, b3, rfl⟩
    · cases h
  · cases h

theorem decodeBytes_of_short (P : Params) (o : ByteOrder) {bs : List Byte} (h : bs.length < 4) :
    decodeBytes P o bs = .error (.truncated bs.length) := by
  match bs, h with
  | [], _ | [_], _ | [_, _], _ | [_, _, _], _ => rfl

/-- Settles O56, by the length that each reader asks for. -/
theorem instructionsAreExactly32Bits : Obligations.InstructionsAreExactly32Bits := by
  refine ⟨fun _ _ _ => decodeTableWord_cases, fun P o bs rest i h => ?_, fun P o _ => decodeBytes_of_short P o⟩
  obtain ⟨_, _, _, _, rfl⟩ := decodeBytes_cases h
  exact ⟨rfl, rfl⟩

end Sys2Proof
end

section
/-! How a line is read (R74, R80, R81): its token, the grammar of the token, and the classification of the line. -/

namespace Sys2Proof.Machine
open Spec

/-! ### Where a run of characters ends -/

/-- A run of characters with p does not go on into the text. -/
def EndsRun (p : Char → Bool) (t : Text) : Prop := ∀ c ∈ t.head?, p c = false

@[simp] theorem endsRun_nil (p : Char → Bool) : EndsRun p [] := by simp [EndsRun]

@[simp] theorem endsRun_cons (p : Char → Bool) (c : Char) (t : Text) : EndsRun p (c :: t) ↔ p c = false := by
  simp [EndsRun]

theorem EndsRun.takeWhile_eq_nil {p : Char → Bool} {u : Text} (h : EndsRun p u) : u.takeWhile p = [] := by
  cases u with
  | nil => rfl
  | cons c u => exact List.takeWhile_cons_of_neg (by simpa using h)

theorem EndsRun.dropWhile_eq_self {p : Char → Bool} {u : Text} (h : EndsRun p u) : u.dropWhile p = u := by
  cases u with
  | nil => rfl
  | cons c u => exact List.dropWhile_cons_of_neg (by simpa using h)

theorem takeWhile_append_of_endsRun {p : Char → Bool} {t u : Text} (ht : ∀ c ∈ t, p c = true) (hu : EndsRun p u) :
    (t ++ u).takeWhile p = t := by
  rw [List.takeWhile_append_of_pos ht, hu.takeWhile_eq_nil, List.append_nil]

theorem dropWhile_append_of_endsRun {p : Char → Bool} {t u : Text} (ht : ∀ c ∈ t, p c = true) (hu : EndsRun p u) :
    (t ++ u).dropWhile p = u := by
  rw [List.dropWhile_append_of_pos ht, hu.dropWhile_eq_self]

/-! ### Tokens and their grammars (R74) -/

/-- The closed set of tokens (R74, conflict C6). -/
def mnemonicTokens : List Text :=
  ["ADD", "ADDS", "SUB", "SUBS", "AND", "ANDS", "ORR", "EOR", "ADDI", "ADDIS", "SUBI", "SUBIS", "ANDI", "ANDIS", "ORRI",
    "EORI", "STUR", "LDUR", "STURB", "LDURB", "MOVZ", "MOVK", "LSR", "LSL", "CBZ", "CBNZ", "B", "BL", "BR"].map
    String.toList

/-- The parameters change no token of the closed set. -/
theorem map_fst_grammars (H : HostParams) : (grammars H).map Prod.fst = mnemonicTokens := rfl

theorem mem_grammars_of_grammarOf {H : HostParams} {token : Text} {g : Text → Option Instr}
    (h : grammarOf H token = some g) : (token, g) ∈ grammars H := by
  obtain ⟨⟨token', g'⟩, hf, rfl⟩ := Option.map_eq_some_iff.1 h
  obtain rfl : token' = token := by simpa using List.find?_some hf
  exact List.mem_of_find?_eq_some hf

/-- Only a token of the closed set has a grammar. -/
theorem grammarOf_eq_none {H : HostParams} {token : Text} (h : token ∉ mnemonicTokens) : grammarOf H token = none := by
  refine Option.eq_none_iff_forall_ne_some.2 fun g hg => h ?_
  rw [← map_fst_grammars H]
  exact List.mem_map_of_mem (mem_grammars_of_grammarOf hg)

/-- Settles O50: the token is the run before the space or point, and a grammar is found under its own token. -/
theorem tokensAreMatchedWhole : Obligations.TokensAreMatchedWhole := by
  refine ⟨fun token rest c htoken hc => ?_, fun H token g => mem_grammars_of_grammarOf, fun H => ⟨rfl, rfl, rfl⟩⟩
  refine takeWhile_append_of_endsRun (fun d hd => ?_) ?_
  · simpa [inToken] using htoken d hd
  · obtain rfl | rfl := hc <;> simp [inToken]

/-! ### Lines -/

theorem readLine_eq_bind (H : HostParams) (t : Text) :
    readLine H t = (grammarOf H (mnemonicToken t)).bind fun g => g (t.dropWhile inToken) := by
  unfold readLine
  cases grammarOf H (mnemonicToken t) <;> rfl

/-- A line is read by the grammar of the token that it begins with. -/
theorem readLine_append {H : HostParams} {mn u : Text} (hmn : ∀ c ∈ mn, inToken c = true) (hu : EndsRun inToken u) :
    readLine H (mn ++ u) = (grammarOf H mn).bind fun g => g u := by
  rw [readLine_eq_bind, mnemonicToken, takeWhile_append_of_endsRun hmn hu, dropWhile_append_of_endsRun hmn hu]

/-- A line whose token is not in the closed set reads as no instruction. -/
theorem readLine_eq_none {H : HostParams} {t : Text} (h : mnemonicToken t ∉ mnemonicTokens) : readLine H t = none := by
  rw [readLine_eq_bind, grammarOf_eq_none h, Option.bind_none]

theorem readsAs_iff (H : HostParams) (l : Text) (i : Instr) : ReadsAs H l i ↔ readLine H l = some i := by
  rw [readLine_eq_bind, Option.bind_eq_some_iff, ReadsAs]

theorem isBlank_iff (l : Text) : isBlank l = true ↔ ∀ c ∈ l, c.isWhitespace = true := List.all_eq_true

theorem isBlank_eq_false_iff (l : Text) : isBlank l = false ↔ ∃ c ∈ l, c.isWhitespace = false := by
  simp [isBlank]

/-- The instruction that a line which is not blank is classified as, if any: what it reads as, or else, where the
parameters take it as a variant, what its canonical line reads as. -/
def lineInstr (H : HostParams) (l : Text) : Option Instr :=
  (readLine H l).or (if H.lexical l then readLine H (canonicalLine l) else none)

theorem parseLine_of_blank {H : HostParams} {l : Text} (h : isBlank l = true) : parseLine H l = .blank := by
  rw [parseLine, if_pos h]

theorem parseLine_of_not_blank {H : HostParams} {l : Text} (h : isBlank l = false) :
    parseLine H l = (lineInstr H l).elim .error .instruction := by
  rw [parseLine, if_neg (by simp [h]), lineInstr]
  cases readLine H l with
  | some i => rfl
  | none => cases (if H.lexical l then readLine H (canonicalLine l) else none) <;> rfl

theorem lineInstr_eq_some_iff (H : HostParams) (l : Text) (i : Instr) : lineInstr H l = some i ↔
    readLine H l = some i ∨
      (∀ j, readLine H l ≠ some j) ∧ H.lexical l = true ∧ readLine H (canonicalLine l) = some i := by
  rw [lineInstr, Option.or_eq_some_iff, Option.eq_none_iff_forall_ne_some]
  cases H.lexical l <;> simp

theorem lineInstr_eq_none_iff (H : HostParams) (l : Text) : lineInstr H l = none ↔
    (∀ i, readLine H l ≠ some i) ∧ (H.lexical l = true → ∀ i, readLine H (canonicalLine l) ≠ some i) := by
  rw [lineInstr, Option.or_eq_none_iff, Option.eq_none_iff_forall_ne_some]
  cases H.lexical l <;> simp [Option.eq_none_iff_forall_ne_some]

/-- Settles O48: a blank line is Blank, and any other is its instruction or, where it has none, an Error. -/
theorem linesAreBlankInstructionOrError : Obligations.LinesAreBlankInstructionOrError := by
  intro H l
  simp only [readsAs_iff, ← isBlank_iff, ← isBlank_eq_false_iff]
  cases hb : isBlank l with
  | true => simp [parseLine_of_blank hb]
  | false =>
    simp only [parseLine_of_not_blank hb, ← lineInstr_eq_some_iff, ← lineInstr_eq_none_iff, ne_eq]
    cases lineInstr H l <;> simp

/-- A line with another character than whitespace that reads as an instruction is it, under any parameters. -/
theorem parseLine_of_readLine {H : HostParams} {l : Text} {i : Instr} (hb : isBlank l = false)
    (h : readLine H l = some i) : parseLine H l = .instruction i := by
  rw [parseLine_of_not_blank hb, (lineInstr_eq_some_iff H l i).2 (.inl h), Option.elim_some]

/-- A line with another character than whitespace is an Error under any parameters when neither it nor its canonical line
reads as an instruction. -/
theorem parseLine_eq_error {H : HostParams} {l : Text} (hb : isBlank l = false) (h : readLine H l = none)
    (hc : readLine H (canonicalLine l) = none) : parseLine H l = .error := by
  rw [parseLine_of_not_blank hb, lineInstr, h, hc, Option.none_or, ite_self, Option.elim_none]

end Sys2Proof.Machine
end

section
/-! Canonical lines (R81, log entry 11): words joined as canonical spellings join them are the words of the line they make,
so a canonical spelling is its own canonical line. -/

namespace Sys2Proof.Machine
open Spec

theorem endsRun_dropWhile (p : Char → Bool) (u : Text) : EndsRun p (u.dropWhile p) := by
  intro c hc
  have hhead := List.head?_dropWhile_not p u
  rwa [hc] at hhead

/-! ### Words -/

/-- A character that goes on with a word: no whitespace, no comma and no bracket. -/
def inWord (c : Char) : Bool := !(c.isWhitespace || c == ',' || c == '[' || c == ']')

/-- A word of a line, other than a bracket. -/
def isWord (w : Text) : Bool := w != [] && w.all inWord

theorem isWord_iff (w : Text) : isWord w = true ↔ w ≠ [] ∧ ∀ c ∈ w, inWord c = true := by
  simp [isWord]

theorem lexWords_append (acc : Text) {w : Text} (hw : ∀ c ∈ w, inWord c = true) (u : Text) :
    lexWords acc (w ++ u) = lexWords (w.reverse ++ acc) u := by
  induction w generalizing acc with
  | nil => rfl
  | cons c w ih =>
    obtain ⟨hc, hw⟩ := List.forall_mem_cons.1 hw
    simp only [inWord, Bool.not_eq_true', Bool.or_eq_false_iff] at hc
    obtain ⟨⟨⟨hspace, hcomma⟩, hopen⟩, hclose⟩ := hc
    simp [lexWords, hspace, hcomma, hopen, hclose, ih (c :: acc) hw]

/-- Where a word ends, it is one of the line's words, and the rest is read afresh. -/
theorem lexWords_of_endsRun {acc u : Text} (hacc : acc ≠ []) (hu : EndsRun inWord u) :
    lexWords acc u = acc.reverse :: lexWords [] u := by
  cases u with
  | nil => simp [lexWords, hacc]
  | cons c u =>
    cases hsep : (c.isWhitespace || c == ',') with
    | true => simp only [lexWords, hsep, hacc, if_true, if_false, List.singleton_append, List.nil_append]
    | false =>
      have hbracket : (c == '[' || c == ']') = true := by
        rw [endsRun_cons, inWord, Bool.or_assoc, hsep] at hu
        simpa only [Bool.false_or, Bool.not_eq_false'] using hu
      simp [lexWords, hsep, hbracket, hacc]

theorem lexWords_word_append {w u : Text} (hw : isWord w = true) (hu : EndsRun inWord u) :
    lexWords [] (w ++ u) = w :: lexWords [] u := by
  obtain ⟨hne, hall⟩ := (isWord_iff w).1 hw
  rw [lexWords_append [] hall, lexWords_of_endsRun (by simpa using hne) hu]
  simp

/-- A text that begins with a character of a word has a first word that begins so. -/
theorem lexWords_cons_of_inWord {c : Char} (hc : inWord c = true) (u : Text) :
    ∃ w ws, lexWords [] (c :: u) = (c :: w) :: ws := by
  refine ⟨u.takeWhile inWord, lexWords [] (u.dropWhile inWord), ?_⟩
  have hword : isWord (c :: u.takeWhile inWord) = true := by
    simpa [isWord_iff, hc] using fun _ => List.mem_takeWhile_imp
  rw [← lexWords_word_append hword (endsRun_dropWhile inWord u), List.cons_append, List.takeWhile_append_dropWhile]

@[simp] theorem lexWords_space (u : Text) : lexWords [] (' ' :: u) = lexWords [] u := rfl

/-! ### Operands joined (R81) -/

/-- The separator between two operand words. -/
def separator (before w : Text) : Text :=
  if before = "[".toList ∨ w = "]".toList then []
  else if before = "LSL".toList then " ".toList else ", ".toList

theorem joinOperands_cons (before w : Text) (ws : List Text) :
    joinOperands before (w :: ws) = separator before w ++ (w ++ joinOperands w ws) := List.append_assoc _ _ _

theorem lexWords_separator_append (before w u : Text) : lexWords [] (separator before w ++ u) = lexWords [] u := by
  unfold separator
  split_ifs <;> rfl

/-- A word or a bracket. -/
def isLexeme (w : Text) : Bool := isWord w || w == "[".toList || w == "]".toList

/-- A word ends before the separator and the operand after it. -/
theorem endsRun_joinOperands_append {before u : Text} (hb : isWord before = true) (hu : EndsRun inWord u)
    (ws : List Text) : EndsRun inWord (joinOperands before ws ++ u) := by
  cases ws with
  | nil => exact hu
  | cons w ws =>
    have hopen : before ≠ "[".toList := by rintro rfl; exact absurd hb (by decide)
    rw [joinOperands_cons, separator]
    by_cases hw : w = "]".toList
    · simp [hw, inWord]
    · simp only [hopen, hw, or_self, if_false]
      split_ifs <;> simp [inWord]

theorem lexWords_lexeme_append {w u : Text} (hw : isLexeme w = true) (hu : isWord w = true → EndsRun inWord u) :
    lexWords [] (w ++ u) = w :: lexWords [] u := by
  simp only [isLexeme, Bool.or_eq_true, beq_iff_eq] at hw
  obtain (hw | rfl) | rfl := hw
  · exact lexWords_word_append hw (hu hw)
  · rfl
  · rfl

/-- Joined operands are read as the words that they were joined from, and what follows them is read afresh. -/
theorem lexWords_joinOperands_append {w u : Text} {ws : List Text} (h : ∀ x ∈ w :: ws, isLexeme x = true)
    (hu : EndsRun inWord u) : lexWords [] (w ++ (joinOperands w ws ++ u)) = w :: ws ++ lexWords [] u := by
  induction ws generalizing w with
  | nil =>
    rw [joinOperands, List.nil_append, lexWords_lexeme_append (h w (by simp)) fun _ => hu, List.singleton_append]
  | cons w' ws ih =>
    obtain ⟨hw, hws⟩ := List.forall_mem_cons.1 h
    rw [lexWords_lexeme_append hw fun hword => endsRun_joinOperands_append hword hu _, joinOperands_cons,
      List.append_assoc, lexWords_separator_append, List.append_assoc, ih hws]
    rfl

/-! ### Lines joined -/

/-- The line of a mnemonic and operand words, with the canonical separators between them. -/
def joinLine (mn w : Text) (ws : List Text) : Text := mn ++ (' ' :: (w ++ joinOperands w ws))

theorem canonicalLine_of_lexWords {t mn w : Text} {ws : List Text} (h : lexWords [] t = mn :: w :: ws) :
    canonicalLine t = joinLine (canonicalToken mn) (canonicalOperand w) (ws.map canonicalOperand) := by
  rw [canonicalLine, h]
  exact List.append_assoc _ _ _ |>.trans (List.append_assoc _ _ _)

/-- What a joined line of canonical words and a text after it have as their canonical line: the text's words joined to
those of the line. -/
theorem canonicalLine_joinLine_append {mn w u : Text} {ws : List Text} (hmn : isWord mn = true)
    (hcanon : canonicalToken mn = mn) (h : ∀ x ∈ w :: ws, isLexeme x = true ∧ canonicalOperand x = x)
    (hu : EndsRun inWord u) :
    canonicalLine (joinLine mn w ws ++ u) = joinLine mn w (ws ++ (lexWords [] u).map canonicalOperand) := by
  have hlex : lexWords [] (joinLine mn w ws ++ u) = mn :: w :: (ws ++ lexWords [] u) := by
    have hspace : EndsRun inWord (' ' :: (w ++ (joinOperands w ws ++ u))) := by simp [inWord]
    rw [joinLine, List.append_assoc, List.cons_append, List.append_assoc, lexWords_word_append hmn hspace,
      lexWords_space, lexWords_joinOperands_append (fun x hx => (h x hx).1) hu, List.cons_append]
  have hws : ws.map canonicalOperand = ws :=
    (List.map_congr_left fun x hx => (h x (List.mem_cons_of_mem w hx)).2).trans (List.map_id' ws)
  rw [canonicalLine_of_lexWords hlex, hcanon, (h w List.mem_cons_self).2, List.map_append, hws]

/-- A joined line of canonical words is its own canonical line. -/
theorem canonicalLine_joinLine {mn w : Text} {ws : List Text} (hmn : isWord mn = true)
    (hcanon : canonicalToken mn = mn) (h : ∀ x ∈ w :: ws, isLexeme x = true ∧ canonicalOperand x = x) :
    canonicalLine (joinLine mn w ws) = joinLine mn w ws := by
  simpa [lexWords] using canonicalLine_joinLine_append hmn hcanon h (endsRun_nil inWord)

/-! ### The words of canonical spellings (R75, R76) -/

/-- A decimal is one or more digits. -/
theorem isDigit_of_mem_decimal {n : Nat} {c : Char} (h : c ∈ decimal n) : c.isDigit = true :=
  Nat.isDigit_of_mem_toDigits (by decide) (by decide) h

theorem decimal_eq_cons (n : Nat) : ∃ d ds, decimal n = d :: ds ∧ d.isDigit = true := by
  obtain ⟨d, ds, h⟩ := List.exists_cons_of_ne_nil (Nat.toDigits_ne_nil (n := n) (b := 10))
  exact ⟨d, ds, h, isDigit_of_mem_decimal (n := n) (by rw [decimal, h]; exact List.mem_cons_self)⟩

@[simp] theorem ofDigitChars_decimal (n : Nat) : Nat.ofDigitChars 10 (decimal n) 0 = n := Nat.ofDigitChars_ten_toDigits

theorem inWord_of_isDigit {c : Char} (h : c.isDigit = true) : inWord c = true := by
  by_contra hc
  simp only [inWord, Char.isWhitespace, Bool.not_eq_true, Bool.not_eq_false', Bool.or_eq_true, beq_iff_eq,
    decide_eq_true_eq] at hc
  obtain (((((rfl | rfl) | rfl) | rfl) | rfl) | rfl) | rfl := hc <;> exact absurd h (by decide)

theorem toUpper_of_isDigit {c : Char} (h : c.isDigit = true) : c.toUpper = c := by
  simp only [Char.isDigit, Bool.and_eq_true, decide_eq_true_eq, ge_iff_le, UInt32.le_iff_toNat_le] at h
  refine dif_neg fun hlower => ?_
  simp only [UInt32.le_iff_toNat_le] at hlower
  exact absurd (hlower.1.trans h.2) (by decide)

/-- A word of an operand that a canonical line keeps as it is, and has a comma before the next. -/
structure IsOperand (w : Text) : Prop where
  word : isWord w = true
  canonical : canonicalOperand w = w
  ne_lsl : w ≠ "LSL".toList

theorem canonicalOperand_of_upper {w : Text} (hupper : w.map Char.toUpper = w) (hx : 'X' ∉ w) (hz : 'Z' ∉ w) :
    canonicalOperand w = w := by
  simp only [canonicalOperand, hupper]
  split
  · exact absurd List.mem_cons_self hx
  · rw [if_neg (by rintro rfl; exact hz (by decide))]

theorem isOperand_of_literal {w : Text} (hne : w ≠ []) (h : ∀ c ∈ w, c.isDigit = true ∨ c = '-') : IsOperand w where
  word := by
    refine (isWord_iff w).2 ⟨hne, fun c hc => ?_⟩
    obtain hdigit | rfl := h c hc
    · exact inWord_of_isDigit hdigit
    · decide
  canonical := by
    refine canonicalOperand_of_upper ?_ (fun hx => absurd (h _ hx) (by decide)) fun hz => absurd (h _ hz) (by decide)
    refine (List.map_congr_left fun c hc => ?_).trans (List.map_id' w)
    obtain hdigit | rfl := h c hc
    · exact toUpper_of_isDigit hdigit
    · decide
  ne_lsl := by
    rintro rfl
    exact absurd (h 'L' (by decide)) (by decide)

theorem isOperand_spellInt (v : Int) : IsOperand (spellInt v) := by
  have hne := Nat.toDigits_ne_nil (n := v.natAbs) (b := 10)
  have hdigits : ∀ c ∈ decimal v.natAbs, c.isDigit = true ∨ c = '-' := fun c hc => .inl (isDigit_of_mem_decimal hc)
  unfold spellInt
  split
  · exact isOperand_of_literal (by simp) (List.forall_mem_cons.2 ⟨.inr rfl, hdigits⟩)
  · exact isOperand_of_literal hne hdigits

/-- `X` and a decimal, of a register or of none. -/
theorem isOperand_x_decimal (n : Nat) : IsOperand ('X' :: decimal n) where
  word := (isWord_iff _).2 ⟨by simp,
    List.forall_mem_cons.2 ⟨by decide, fun _ hc => inWord_of_isDigit (isDigit_of_mem_decimal hc)⟩⟩
  canonical := by
    have hupper : (decimal n).map Char.toUpper = decimal n :=
      (List.map_congr_left fun c hc => toUpper_of_isDigit (isDigit_of_mem_decimal hc)).trans (List.map_id' _)
    have hdigits : (decimal n).all Char.isDigit = true := List.all_eq_true.2 fun _ => isDigit_of_mem_decimal
    have hne : decimal n ≠ [] := Nat.toDigits_ne_nil
    simp only [canonicalOperand, List.map_cons, hupper, show Char.toUpper 'X' = 'X' by decide, hdigits, hne, ne_eq,
      not_false_eq_true, and_self, if_true, ofDigitChars_decimal]
  ne_lsl := by simp

theorem isOperand_spellReg (r : Reg) : IsOperand (spellReg r) := by
  cases r with
  | x n => exact isOperand_x_decimal n
  | xzr => exact ⟨by decide, by decide, by decide⟩

/-! ### Canonical spellings as joined lines (R81) -/

theorem IsOperand.lexeme {w : Text} (h : IsOperand w) : isLexeme w = true ∧ canonicalOperand w = w :=
  ⟨by simp [isLexeme, h.word], h.canonical⟩

/-- An operand and the next have a comma between them. -/
theorem joinOperands_of_isOperand {before w : Text} (hb : IsOperand before) (hw : w ≠ "]".toList) (ws : List Text) :
    joinOperands before (w :: ws) = ", ".toList ++ (w ++ joinOperands w ws) := by
  have hopen : before ≠ "[".toList := by rintro rfl; exact absurd hb.word (by decide)
  rw [joinOperands_cons, separator, if_neg (by simp only [hopen, hw, or_self, not_false_eq_true]), if_neg hb.ne_lsl]

@[simp] theorem joinOperands_nil (before : Text) : joinOperands before [] = [] := rfl

/-- Nothing stands between a bracket and the operand inside it. -/
theorem joinOperands_open (w : Text) (ws : List Text) : joinOperands "[".toList (w :: ws) = w ++ joinOperands w ws := by
  rw [joinOperands_cons, separator, if_pos (.inl rfl), List.nil_append]

theorem joinOperands_close (before : Text) : joinOperands before ["]".toList] = "]".toList := by
  rw [joinOperands_cons, separator, if_pos (.inr rfl), joinOperands_nil, List.append_nil, List.nil_append]

theorem IsOperand.ne_close {w : Text} (h : IsOperand w) : w ≠ "]".toList := by
  rintro rfl
  exact absurd h.word (by decide)

theorem joinLine_one (mn a : Text) : joinLine mn a [] = mn ++ " ".toList ++ a := by
  simp [joinLine]

theorem joinLine_two {a b : Text} (mn : Text) (ha : IsOperand a) (hb : IsOperand b) :
    joinLine mn a [b] = mn ++ " ".toList ++ a ++ ", ".toList ++ b := by
  simp [joinLine, joinOperands_of_isOperand ha hb.ne_close]

theorem joinLine_three {a b c : Text} (mn : Text) (ha : IsOperand a) (hb : IsOperand b) (hc : IsOperand c) :
    joinLine mn a [b, c] = mn ++ " ".toList ++ a ++ ", ".toList ++ b ++ ", ".toList ++ c := by
  simp [joinLine, joinOperands_of_isOperand ha hb.ne_close, joinOperands_of_isOperand hb hc.ne_close]

theorem joinLine_mem (mn : Text) (rt rn : Reg) (off : Int) :
    joinLine mn (spellReg rt) ["[".toList, spellReg rn, spellInt off, "]".toList] = spellMem mn rt rn off := by
  have hopen : "[".toList ≠ "]".toList := by decide
  rw [joinLine, joinOperands_of_isOperand (isOperand_spellReg rt) hopen, joinOperands_open,
    joinOperands_of_isOperand (isOperand_spellReg rn) (isOperand_spellInt off).ne_close, joinOperands_close]
  simp [spellMem]

/-- The operand words of a shift suffix (R78). -/
def shiftWords : ShiftAmount → List Text
  | .lsl0 => []
  | .lsl16 => ["LSL".toList, "16".toList]
  | .lsl32 => ["LSL".toList, "32".toList]
  | .lsl48 => ["LSL".toList, "48".toList]

theorem joinOperands_shiftWords {w : Text} (h : IsOperand w) (hw : ShiftAmount) :
    joinOperands w (shiftWords hw) = spellShift hw := by
  have hlsl : "LSL".toList ≠ "]".toList := by decide
  cases hw
  case lsl0 => rfl
  all_goals rw [shiftWords, joinOperands_of_isOperand h hlsl]; rfl

theorem joinLine_move (mn : Text) (rd : Reg) (v : Int) (hw : ShiftAmount) :
    joinLine mn (spellReg rd) (spellInt v :: shiftWords hw) = spellMove mn rd v hw := by
  simp [joinLine, joinOperands_of_isOperand (isOperand_spellReg rd) (isOperand_spellInt v).ne_close,
    joinOperands_shiftWords (isOperand_spellInt v), spellMove]

/-! ### Their canonical lines -/

section
variable {mn : Text} (hmn : isWord mn = true) (hcanon : canonicalToken mn = mn)
include hmn hcanon

theorem canonicalLine_one {a : Text} (ha : IsOperand a) :
    canonicalLine (mn ++ " ".toList ++ a) = mn ++ " ".toList ++ a := by
  rw [← joinLine_one]
  exact canonicalLine_joinLine hmn hcanon (by simp [ha.lexeme])

theorem canonicalLine_two {a b : Text} (ha : IsOperand a) (hb : IsOperand b) :
    canonicalLine (mn ++ " ".toList ++ a ++ ", ".toList ++ b) = mn ++ " ".toList ++ a ++ ", ".toList ++ b := by
  rw [← joinLine_two mn ha hb]
  exact canonicalLine_joinLine hmn hcanon (by simp [ha.lexeme, hb.lexeme])

theorem canonicalLine_three {a b c : Text} (ha : IsOperand a) (hb : IsOperand b) (hc : IsOperand c) :
    canonicalLine (mn ++ " ".toList ++ a ++ ", ".toList ++ b ++ ", ".toList ++ c) =
      mn ++ " ".toList ++ a ++ ", ".toList ++ b ++ ", ".toList ++ c := by
  rw [← joinLine_three mn ha hb hc]
  exact canonicalLine_joinLine hmn hcanon (by simp [ha.lexeme, hb.lexeme, hc.lexeme])

theorem canonicalLine_spellMem (rt rn : Reg) (off : Int) :
    canonicalLine (spellMem mn rt rn off) = spellMem mn rt rn off := by
  have hbrackets : ∀ x ∈ ["[".toList, "]".toList], isLexeme x = true ∧ canonicalOperand x = x := by decide
  rw [← joinLine_mem]
  refine canonicalLine_joinLine hmn hcanon fun x hx => ?_
  simp only [List.mem_cons, List.not_mem_nil, or_false] at hx
  obtain rfl | rfl | rfl | rfl | rfl := hx
  · exact (isOperand_spellReg rt).lexeme
  · exact hbrackets _ (by simp)
  · exact (isOperand_spellReg rn).lexeme
  · exact (isOperand_spellInt off).lexeme
  · exact hbrackets _ (by simp)

theorem canonicalLine_spellMove (rd : Reg) (v : Int) (hw : ShiftAmount) :
    canonicalLine (spellMove mn rd v hw) = spellMove mn rd v hw := by
  have hshift : ∀ x ∈ shiftWords hw, isLexeme x = true ∧ canonicalOperand x = x := by cases hw <;> decide
  rw [← joinLine_move]
  refine canonicalLine_joinLine hmn hcanon fun x hx => ?_
  simp only [List.mem_cons] at hx
  obtain rfl | rfl | hx := hx
  · exact (isOperand_spellReg rd).lexeme
  · exact (isOperand_spellInt v).lexeme
  · exact hshift x hx

end

/-- Settles O52: a canonical spelling is a joined line of canonical words. -/
theorem canonicalSpellingsAreTheirOwnVariants : Obligations.CanonicalSpellingsAreTheirOwnVariants := by
  have hreg := isOperand_spellReg
  have hint := isOperand_spellInt
  intro i
  cases i with
  | add rd rn rm | adds rd rn rm | sub rd rn rm | subs rd rn rm | and rd rn rm | ands rd rn rm | orr rd rn rm
  | eor rd rn rm => exact canonicalLine_three (by decide) (by decide) (hreg rd) (hreg rn) (hreg rm)
  | addi rd rn v | addis rd rn v | subi rd rn v | subis rd rn v | andi rd rn v | andis rd rn v | orri rd rn v
  | eori rd rn v | lsr rd rn v | lsl rd rn v =>
    exact canonicalLine_three (by decide) (by decide) (hreg rd) (hreg rn) (hint v)
  | stur rt rn off | ldur rt rn off | sturb rt rn off | ldurb rt rn off =>
    exact canonicalLine_spellMem (by decide) (by decide) rt rn off
  | movz rd v hw | movk rd v hw => exact canonicalLine_spellMove (by decide) (by decide) rd v hw
  | cbz rt addr | cbnz rt addr => exact canonicalLine_two (by decide) (by decide) (hreg rt) (hint addr)
  | bCond c addr => cases c <;> exact canonicalLine_one (by decide) (by decide) (hint addr)
  | b addr => exact canonicalLine_one (mn := "B".toList) (by decide) (by decide) (hint addr)
  | bl addr => exact canonicalLine_one (mn := "BL".toList) (by decide) (by decide) (hint addr)
  | br rn => exact canonicalLine_one (mn := "BR".toList) (by decide) (by decide) (hreg rn)

end Sys2Proof.Machine
end

section
/-! The parser reads every canonical spelling as its instruction (R75 to R79, R81): each reader of an operand takes its
spelling off the front of a text, and each grammar takes the operands one after another. -/

namespace Sys2Proof.Machine

/-! ### Operands (R75 to R79) -/

@[simp] theorem eat_nil (u : Text) : eat [] u = some u := rfl

@[simp] theorem eat_cons_cons (p c : Char) (ps u : Text) :
    eat (p :: ps) (c :: u) = if p = c then eat ps u else none := rfl

@[simp] theorem takeWhile_decimal_append {n : Nat} {u : Text} (hu : EndsRun Char.isDigit u) :
    (decimal n ++ u).takeWhile Char.isDigit = decimal n :=
  takeWhile_append_of_endsRun (fun _ => isDigit_of_mem_decimal) hu

@[simp] theorem dropWhile_decimal_append {n : Nat} {u : Text} (hu : EndsRun Char.isDigit u) :
    (decimal n ++ u).dropWhile Char.isDigit = u :=
  dropWhile_append_of_endsRun (fun _ => isDigit_of_mem_decimal) hu

/-- A text that begins with a decimal begins with no other character than a digit. -/
theorem eat_decimal_append {c : Char} (hc : c.isDigit = false) (p : Text) (n : Nat) (u : Text) :
    eat (c :: p) (decimal n ++ u) = none := by
  obtain ⟨d, ds, hd, hdigit⟩ := decimal_eq_cons n
  have hne : c ≠ d := by rintro rfl; rw [hc] at hdigit; cases hdigit
  rw [hd, List.cons_append, eat, if_neg hne]

/-- `X` and a decimal is read as a register exactly up to 30. -/
theorem readReg_x_decimal {n : Nat} {u : Text} (hu : EndsRun Char.isDigit u) :
    readReg ('X' :: (decimal n ++ u)) = if h : n < 31 then some (.x ⟨n, h⟩, u) else none := by
  simp [readReg, eat_decimal_append (c := 'Z') (by decide), hu]

@[simp] theorem readReg_spellReg_append (r : Reg) {u : Text} (hu : EndsRun Char.isDigit u) :
    readReg (spellReg r ++ u) = some (r, u) := by
  cases r with
  | x n => exact (readReg_x_decimal hu).trans (dif_pos n.isLt)
  | xzr => rfl

@[simp] theorem readReg_spellReg (r : Reg) : readReg (spellReg r) = some (r, []) := by
  simpa using readReg_spellReg_append r (endsRun_nil Char.isDigit)

theorem readNat_decimal_append (n : Nat) {u : Text} (hu : EndsRun Char.isDigit u) :
    readNat (decimal n ++ u) = some (n, u) := by
  obtain ⟨d, ds, hd, _⟩ := decimal_eq_cons n
  simp only [readNat, takeWhile_decimal_append hu, dropWhile_decimal_append hu]
  rw [hd]
  simp only [← hd, ofDigitChars_decimal]

@[simp] theorem readInt_spellInt_append (v : Int) {u : Text} (hu : EndsRun Char.isDigit u) :
    readInt (spellInt v ++ u) = some (v, u) := by
  unfold spellInt
  split
  · next hneg => simp [readInt, readNat_decimal_append _ hu, abs_of_neg hneg]
  · next hnonneg =>
    simp [readInt, eat_decimal_append (c := '-') (by decide), readNat_decimal_append _ hu,
      abs_of_nonneg (not_lt.1 hnonneg)]

/-- A literal that its container holds is read as itself (R76, D22). -/
theorem readImmediate_spellInt_append {H : HostParams} {W : Nat} {v : Int} (hv : containerValue H W v = some v)
    {u : Text} (hu : EndsRun Char.isDigit u) : readImmediate H W (spellInt v ++ u) = some (v, u) := by
  simp [readImmediate, hu, hv]

theorem readImmediate_spellInt {H : HostParams} {W : Nat} {v : Int} (hv : containerValue H W v = some v) :
    readImmediate H W (spellInt v) = some (v, []) := by
  simpa using readImmediate_spellInt_append hv (endsRun_nil Char.isDigit)

theorem containerValue_eq_self {H : HostParams} {W : Nat} {v : Int}
    (h : surelyHeld W v = true ∨ H.immContainer W v = some v) : containerValue H W v = some v := by
  unfold containerValue
  split_ifs with hs
  · rfl
  · exact h.resolve_left hs

theorem find?_condName (c : Cond) : (allConds.find? fun k => condName k == condName c) = some c := by
  cases c <;> decide

@[simp] theorem readCond_condName_append (c : Cond) (u : Text) : readCond (condName c ++ u) = some (c, u) := by
  have hlen : (condName c).length = 2 := by cases c <;> rfl
  rw [readCond, List.take_left' hlen, List.drop_left' hlen, find?_condName, Option.map_some]

@[simp] theorem spellShift_lsl0 : spellShift .lsl0 = [] := rfl
@[simp] theorem spellShift_lsl16 : spellShift .lsl16 = ", LSL 16".toList := rfl
@[simp] theorem spellShift_lsl32 : spellShift .lsl32 = ", LSL 32".toList := rfl
@[simp] theorem spellShift_lsl48 : spellShift .lsl48 = ", LSL 48".toList := rfl

@[simp] theorem shiftOfSuffix_spellShift (hw : ShiftAmount) : shiftOfSuffix (spellShift hw) = some hw := by
  cases hw <;> simp [shiftOfSuffix]

@[simp] theorem endsRun_spellShift (hw : ShiftAmount) : EndsRun Char.isDigit (spellShift hw) := by
  cases hw <;> simp

/-! ### The grammars (R81) -/

/-- One or more characters of a token, none of them whitespace. -/
def isMnemonic (mn : Text) : Bool := mn != [] && mn.all fun c => inToken c && !c.isWhitespace

theorem isMnemonic_iff (mn : Text) :
    isMnemonic mn = true ↔ mn ≠ [] ∧ ∀ c ∈ mn, inToken c = true ∧ c.isWhitespace = false := by
  simp [isMnemonic]


/-- What follows three registers is left for the end of the line. -/
theorem readRegs3_append (mk : Reg → Reg → Reg → Instr) (ra rb rc : Reg) {u : Text} (hu : EndsRun Char.isDigit u) :
    readRegs3 mk (' ' :: (spellReg ra ++ (", ".toList ++ (spellReg rb ++ (", ".toList ++ (spellReg rc ++ u)))))) =
      atEnd (mk ra rb rc) u := by
  simp [readRegs3, hu]

theorem isBlank_mnemonic_append {mn : Text} (hmn : isMnemonic mn = true) (u : Text) : isBlank (mn ++ u) = false := by
  obtain ⟨hne, hall⟩ := (isMnemonic_iff mn).1 hmn
  obtain ⟨c, hc⟩ := List.exists_mem_of_ne_nil mn hne
  exact (isBlank_eq_false_iff _).2 ⟨c, List.mem_append_left u hc, (hall c hc).2⟩

/-- A line that begins with a mnemonic is read by the mnemonic's grammar, if it has one. -/
theorem readLine_mnemonic_append {H : HostParams} {mn u : Text} (hmn : isMnemonic mn = true) (hu : EndsRun inToken u) :
    readLine H (mn ++ u) = (grammarOf H mn).bind fun g => g u :=
  readLine_append (fun c hc => (((isMnemonic_iff mn).1 hmn).2 c hc).1) hu

/-- A line is the instruction that its token's grammar reads from the text after the token. -/
theorem parseLine_append {H : HostParams} {mn u : Text} {g : Text → Option Instr} {i : Instr}
    (hg : grammarOf H mn = some g) (hmn : isMnemonic mn = true) (hu : EndsRun inToken u) (hi : g u = some i) :
    parseLine H (mn ++ u) = .instruction i := by
  refine parseLine_of_readLine (isBlank_mnemonic_append hmn u) ?_
  rw [readLine_mnemonic_append hmn hu, hg, Option.bind_some, hi]

theorem parseLine_space_append {H : HostParams} {mn u : Text} {g : Text → Option Instr} {i : Instr}
    (hg : grammarOf H mn = some g) (hmn : isMnemonic mn = true) (hi : g (' ' :: u) = some i) :
    parseLine H (mn ++ ' ' :: u) = .instruction i :=
  parseLine_append hg hmn (by simp [inToken]) hi

section
variable {H : HostParams} {mn : Text} (hmn : isMnemonic mn = true)
include hmn

theorem parseLine_spellRegs3 {mk : Reg → Reg → Reg → Instr} (hg : grammarOf H mn = some (readRegs3 mk))
    (rd rn rm : Reg) : parseLine H (spellRegs3 mn rd rn rm) = .instruction (mk rd rn rm) := by
  simp only [spellRegs3, List.append_assoc]
  refine parseLine_space_append hg hmn ?_
  simp [readRegs3, atEnd]

theorem parseLine_spellRegs2Imm {W : Nat} {mk : Reg → Reg → Int → Instr}
    (hg : grammarOf H mn = some (readRegs2Imm H W mk)) (rd rn : Reg) {v : Int} (hv : containerValue H W v = some v) :
    parseLine H (spellRegs2Imm mn rd rn v) = .instruction (mk rd rn v) := by
  simp only [spellRegs2Imm, List.append_assoc]
  refine parseLine_space_append hg hmn ?_
  simp [readRegs2Imm, readImmediate_spellInt hv, atEnd]

theorem parseLine_spellMem {mk : Reg → Reg → Int → Instr} (hg : grammarOf H mn = some (readMem H mk))
    (rt rn : Reg) {off : Int} (hv : containerValue H 9 off = some off) :
    parseLine H (spellMem mn rt rn off) = .instruction (mk rt rn off) := by
  simp only [spellMem, List.append_assoc]
  refine parseLine_space_append hg hmn ?_
  simp [readMem, readImmediate_spellInt_append hv, atEnd]

theorem parseLine_spellMove {mk : Reg → Int → ShiftAmount → Instr} (hg : grammarOf H mn = some (readMove H mk))
    (rd : Reg) {v : Int} (hv : containerValue H 16 v = some v) (hw : ShiftAmount) :
    parseLine H (spellMove mn rd v hw) = .instruction (mk rd v hw) := by
  simp only [spellMove, List.append_assoc]
  refine parseLine_space_append hg hmn ?_
  simp [readMove, readImmediate_spellInt_append hv]

theorem parseLine_spellRegAddr {mk : Reg → Int → Instr} (hg : grammarOf H mn = some (readRegAddr H mk))
    (rt : Reg) {addr : Int} (hv : containerValue H 19 addr = some addr) :
    parseLine H (spellRegAddr mn rt addr) = .instruction (mk rt addr) := by
  simp only [spellRegAddr, List.append_assoc]
  refine parseLine_space_append hg hmn ?_
  simp [readRegAddr, readImmediate_spellInt hv, atEnd]

end

theorem readAddr_spelled {H : HostParams} {addr : Int} (mk : Int → Instr)
    (hv : containerValue H 26 addr = some addr) : readAddr H mk (' ' :: spellInt addr) = some (mk addr) := by
  simp [readAddr, readImmediate_spellInt hv, atEnd]

/-- B's operands without a condition are those of its unconditional form (R79). -/
theorem readB_space (H : HostParams) (u : Text) : readB H (' ' :: u) = readAddr H .b (' ' :: u) := by
  have hcond : readCondAddr H (' ' :: u) = none := by simp [readCondAddr]
  rw [readB, hcond]

theorem readB_spelled_cond {H : HostParams} (c : Cond) {addr : Int} (hv : containerValue H 19 addr = some addr) :
    readB H ('.' :: (condName c ++ (' ' :: spellInt addr))) = some (.bCond c addr) := by
  have hcond : readCondAddr H ('.' :: (condName c ++ (' ' :: spellInt addr))) = some (.bCond c addr) := by
    simp [readCondAddr, readImmediate_spellInt hv, atEnd]
  rw [readB, hcond]

theorem readReg1_spelled (mk : Reg → Instr) (rn : Reg) : readReg1 mk (' ' :: spellReg rn) = some (mk rn) := by
  simp [readReg1, atEnd]

/-- Settles O47, kind by kind: the token's grammar reads the operands back in their order. -/
theorem canonicalSpellingParsesBack : Obligations.CanonicalSpellingParsesBack := by
  intro H i h
  have hheld := fun W v hW hv => containerValue_eq_self (h W v hW hv)
  cases i with
  | add rd rn rm | adds rd rn rm | sub rd rn rm | subs rd rn rm | and rd rn rm | ands rd rn rm | orr rd rn rm
  | eor rd rn rm => exact parseLine_spellRegs3 (by decide) rfl rd rn rm
  | addi rd rn v | addis rd rn v | subi rd rn v | subis rd rn v | andi rd rn v | andis rd rn v | orri rd rn v
  | eori rd rn v | lsr rd rn v | lsl rd rn v =>
    exact parseLine_spellRegs2Imm (by decide) rfl rd rn (hheld _ _ rfl rfl)
  | stur rt rn off | ldur rt rn off | sturb rt rn off | ldurb rt rn off =>
    exact parseLine_spellMem (by decide) rfl rt rn (hheld _ _ rfl rfl)
  | movz rd v hw | movk rd v hw => exact parseLine_spellMove (by decide) rfl rd (hheld _ _ rfl rfl) hw
  | cbz rt addr | cbnz rt addr => exact parseLine_spellRegAddr (by decide) rfl rt (hheld _ _ rfl rfl)
  | bCond c addr =>
    have hread := readB_spelled_cond (H := H) c (hheld _ _ rfl rfl)
    simpa [spell] using parseLine_append (mn := "B".toList) rfl (by decide) (by simp [inToken]) hread
  | b addr =>
    have hread := (readB_space H _).trans (readAddr_spelled .b (hheld _ _ rfl rfl))
    exact parseLine_space_append (mn := "B".toList) rfl (by decide) hread
  | bl addr =>
    exact parseLine_space_append (mn := "BL".toList) rfl (by decide) (readAddr_spelled .bl (hheld _ _ rfl rfl))
  | br rn => exact parseLine_space_append (mn := "BR".toList) rfl (by decide) (readReg1_spelled .br rn)

end Sys2Proof.Machine
end

section
/-! Lines that no parameter makes an instruction (R75, R80, R82, R125): neither the line nor its canonical line reads as
one. -/

namespace Sys2Proof.Machine

/-! ### Mnemonics outside the closed set (R82, R125) -/

/-- A canonical line begins with the line's first word, in canonical case, and has no more of the token than that. -/
theorem canonicalLine_of_first_word {t mn : Text} {ws : List Text} (h : lexWords [] t = mn :: ws) :
    ∃ v, canonicalLine t = canonicalToken mn ++ v ∧ EndsRun inToken v := by
  cases ws with
  | nil => exact ⟨[], by rw [canonicalLine, h, List.append_nil], endsRun_nil inToken⟩
  | cons w ws => exact ⟨_, canonicalLine_of_lexWords h, by simp [inToken]⟩

/-- A line with a mnemonic outside the closed set, and nothing or a space after it, is an Error. -/
theorem parseLine_of_foreign_mnemonic (H : HostParams) {mn u : Text} (hmn : isMnemonic mn = true)
    (hword : isWord mn = true) (hcanon : canonicalToken mn = mn) (hforeign : mn ∉ mnemonicTokens)
    (hu : EndsRun inToken u) (hu' : EndsRun inWord u) : parseLine H (mn ++ u) = .error := by
  have hnone : ∀ v, EndsRun inToken v → readLine H (mn ++ v) = none := fun v hv => by
    rw [readLine_mnemonic_append hmn hv, grammarOf_eq_none hforeign, Option.bind_none]
  obtain ⟨v, hline, hv⟩ := canonicalLine_of_first_word (lexWords_word_append hword hu')
  refine parseLine_eq_error (isBlank_mnemonic_append hmn u) (hnone u hu) ?_
  rw [hline, hcanon, hnone v hv]

/-- Settles O49: the eight mnemonics are words in canonical case, and none is in the closed set. -/
theorem pseudoAndSystemMnemonicsAreErrors : Obligations.PseudoAndSystemMnemonicsAreErrors := by
  have hfacts : ∀ mn ∈ ["MOV", "CMP", "CMPI", "LDA", "SVC", "ERET", "MRS", "WFI"], isMnemonic mn.toList = true ∧
      isWord mn.toList = true ∧ canonicalToken mn.toList = mn.toList ∧ mn.toList ∉ mnemonicTokens := by decide
  intro H mn rest hmn
  obtain ⟨hmnemonic, hword, hcanon, hforeign⟩ := hfacts mn hmn
  constructor
  · simpa using parseLine_of_foreign_mnemonic H hmnemonic hword hcanon hforeign (endsRun_nil _) (endsRun_nil _)
  · exact parseLine_of_foreign_mnemonic H hmnemonic hword hcanon hforeign (by simp [inToken]) (by simp [inWord])

/-! ### Registers above 30 (R75) -/

/-- A line that is its own canonical line and reads as no instruction is an Error. -/
theorem parseLine_of_canonical {H : HostParams} {mn u : Text} {g : Text → Option Instr}
    (hg : grammarOf H mn = some g) (hmn : isMnemonic mn = true)
    (hcanon : canonicalLine (mn ++ ' ' :: u) = mn ++ ' ' :: u) (hread : g (' ' :: u) = none) :
    parseLine H (mn ++ ' ' :: u) = .error := by
  have hnone : readLine H (mn ++ ' ' :: u) = none := by
    rw [readLine_mnemonic_append hmn (by simp [inToken]), hg, Option.bind_some, hread]
  refine parseLine_eq_error (isBlank_mnemonic_append hmn _) hnone ?_
  rw [hcanon, hnone]

theorem readReg_of_large {n : Nat} (hn : 31 ≤ n) {u : Text} (hu : EndsRun Char.isDigit u) :
    readReg ('X' :: (decimal n ++ u)) = none := by
  rw [readReg_x_decimal hu, dif_neg (Nat.not_lt.2 hn)]

theorem readReg_of_large_end {n : Nat} (hn : 31 ≤ n) : readReg ('X' :: decimal n) = none := by
  simpa using readReg_of_large hn (endsRun_nil Char.isDigit)

theorem parseLine_br_of_large (H : HostParams) {n : Nat} (hn : 31 ≤ n) :
    parseLine H ("BR".toList ++ " ".toList ++ ('X' :: decimal n)) = .error := by
  have hcanon := canonicalLine_one (mn := "BR".toList) (by decide) (by decide) (isOperand_x_decimal n)
  simp only [List.append_assoc] at hcanon ⊢
  exact parseLine_of_canonical rfl (by decide) hcanon (by simp [readReg1, readReg_of_large_end hn])

/-- An ADD of three operand words that are not three registers is an Error. -/
theorem parseLine_add_error {H : HostParams} {a b c : Text} (ha : IsOperand a) (hb : IsOperand b) (hc : IsOperand c)
    (hread : readRegs3 .add (" ".toList ++ (a ++ (", ".toList ++ (b ++ (", ".toList ++ c))))) = none) :
    parseLine H ("ADD".toList ++ " ".toList ++ a ++ ", ".toList ++ b ++ ", ".toList ++ c) = .error := by
  have hcanon := canonicalLine_three (mn := "ADD".toList) (by decide) (by decide) ha hb hc
  simp only [List.append_assoc] at hcanon ⊢
  exact parseLine_of_canonical rfl (by decide) hcanon hread

/-! ### Comments (R80) -/

/-- What a character that begins a comment is to the parser: a word may begin with it, a canonical line keeps it,
and no token of the closed set has it. -/
structure CommentChar (c : Char) : Prop where
  inWord : inWord c = true
  inToken : inToken c = true
  not_space : c.isWhitespace = false
  toUpper : c.toUpper = c
  ne_b : c ≠ 'B'
  ne_x : c ≠ 'X'
  ne_z : c ≠ 'Z'
  ne_close : c ≠ ']'
  foreign : ∀ mn ∈ mnemonicTokens, c ∉ mn

theorem commentChar_slash : CommentChar '/' :=
  ⟨by decide, by decide, by decide, by decide, by decide, by decide, by decide, by decide, by simp [mnemonicTokens]⟩

theorem commentChar_semicolon : CommentChar ';' :=
  ⟨by decide, by decide, by decide, by decide, by decide, by decide, by decide, by decide, by simp [mnemonicTokens]⟩

theorem canonicalToken_comment {c : Char} (hc : CommentChar c) (w : Text) :
    ∃ w', canonicalToken (c :: w) = c :: w' := by
  exact ⟨w.map Char.toUpper, by simp [canonicalToken, hc.toUpper, hc.ne_b]⟩

theorem canonicalOperand_comment {c : Char} (hc : CommentChar c) (w : Text) :
    ∃ w', canonicalOperand (c :: w) = c :: w' := by
  exact ⟨w.map Char.toUpper, by simp [canonicalOperand, hc.toUpper, hc.ne_x, hc.ne_z]⟩

/-- A line that begins like a comment reads as no instruction. -/
theorem readLine_comment (H : HostParams) {c : Char} (hc : CommentChar c) (u : Text) : readLine H (c :: u) = none := by
  refine readLine_eq_none fun hmem => hc.foreign _ hmem ?_
  rw [mnemonicToken, List.takeWhile_cons_of_pos hc.inToken]
  exact List.mem_cons_self

/-- A line that begins like a comment is an Error. -/
theorem parseLine_comment (H : HostParams) {c : Char} (hc : CommentChar c) (u : Text) :
    parseLine H (c :: u) = .error := by
  obtain ⟨w, ws, hlex⟩ := lexWords_cons_of_inWord hc.inWord u
  obtain ⟨v, hline, -⟩ := canonicalLine_of_first_word hlex
  obtain ⟨w', hw'⟩ := canonicalToken_comment hc w
  refine parseLine_eq_error ((isBlank_eq_false_iff _).2 ⟨c, List.mem_cons_self, hc.not_space⟩)
    (readLine_comment H hc u) ?_
  rw [hline, hw', List.cons_append, readLine_comment H hc]

/-- An ADD with more on its line reads as no instruction. -/
theorem readLine_add_append (H : HostParams) (ra rb rc : Reg) {v : Text} (hne : v ≠ []) (hv : EndsRun Char.isDigit v) :
    readLine H (spell (.add ra rb rc) ++ v) = none := by
  have hgrammar : grammarOf H "ADD".toList = some (readRegs3 .add) := rfl
  simp only [spell, spellRegs3, List.append_assoc]
  rw [readLine_mnemonic_append (by decide) (by simp [inToken]), hgrammar, Option.bind_some]
  exact (readRegs3_append .add ra rb rc hv).trans (if_neg hne)

/-- A fourth operand word comes after the three and a comma. -/
theorem joinLine_three_append {a b c w : Text} (mn : Text) (ha : IsOperand a) (hb : IsOperand b) (hc : IsOperand c)
    (hw : w ≠ "]".toList) (ws : List Text) :
    joinLine mn a ([b, c] ++ w :: ws) = joinLine mn a [b, c] ++ (", ".toList ++ (w ++ joinOperands w ws)) := by
  simp [joinLine, joinOperands_of_isOperand ha hb.ne_close, joinOperands_of_isOperand hb hc.ne_close,
    joinOperands_of_isOperand hc hw]

/-- The canonical line of an ADD with a comment after it has the comment's first word as a fourth operand. -/
theorem canonicalLine_add_comment {c : Char} (hc : CommentChar c) (ra rb rc : Reg) (u : Text) :
    ∃ v, canonicalLine (spell (.add ra rb rc) ++ ' ' :: c :: u) = spell (.add ra rb rc) ++ ',' :: v := by
  obtain ⟨w, ws, hlex⟩ := lexWords_cons_of_inWord hc.inWord u
  obtain ⟨w', hw'⟩ := canonicalOperand_comment hc w
  have ha := isOperand_spellReg ra
  have hb := isOperand_spellReg rb
  have hc' := isOperand_spellReg rc
  have hspell : spell (.add ra rb rc) = joinLine "ADD".toList (spellReg ra) [spellReg rb, spellReg rc] :=
    (joinLine_three _ ha hb hc').symm
  rw [hspell, canonicalLine_joinLine_append (by decide) (by decide) (by simp [ha.lexeme, hb.lexeme, hc'.lexeme])
    (by simp [inWord]), lexWords_space, hlex, List.map_cons, hw',
    joinLine_three_append _ ha hb hc' (by simp [hc.ne_close])]
  exact ⟨_, rfl⟩

/-- An ADD with a comment after it is an Error: it and its canonical line have more on them than three registers. -/
theorem parseLine_add_comment (H : HostParams) {c : Char} (hc : CommentChar c) (ra rb rc : Reg) (u : Text) :
    parseLine H (spell (.add ra rb rc) ++ ' ' :: c :: u) = .error := by
  obtain ⟨v, hline⟩ := canonicalLine_add_comment hc ra rb rc u
  have hnone := fun d w hd => readLine_add_append H ra rb rc (List.cons_ne_nil d w) ((endsRun_cons _ _ _).2 hd)
  refine parseLine_eq_error ((isBlank_eq_false_iff _).2 ⟨'A', by simp [spell, spellRegs3], by decide⟩)
    (hnone ' ' _ (by decide)) ?_
  rw [hline, hnone ',' v (by decide)]

/-- Settles O51, line by line. -/
theorem addAndBrRegistersAbove30AndCommentLinesAreErrors :
    Obligations.AddAndBrRegistersAbove30AndCommentLinesAreErrors := by
  intro H n ra rb t
  have ha := isOperand_spellReg ra
  have hb := isOperand_spellReg rb
  have hx := isOperand_x_decimal n
  refine ⟨fun hn => ⟨?_, ?_, ?_, ?_⟩, ?_, ?_, ?_, ?_⟩
  · simpa using parseLine_br_of_large H hn
  · simpa using parseLine_add_error (H := H) hx ha hb (by simp [readRegs3, readReg_of_large hn])
  · simpa using parseLine_add_error (H := H) ha hx hb (by simp [readRegs3, readReg_of_large hn])
  · simpa using parseLine_add_error (H := H) ha hb hx (by simp [readRegs3, readReg_of_large_end hn])
  · exact parseLine_comment H commentChar_slash _
  · exact parseLine_comment H commentChar_semicolon _
  · simpa using parseLine_add_comment H commentChar_slash ra rb ra ('/' :: t)
  · simpa using parseLine_add_comment H commentChar_semicolon ra rb ra t

end Sys2Proof.Machine
end

section
/-! The block on any instruction, the step that runs it, and the host's answer to a program with an Error line (R113, R117,
R119). -/

namespace Sys2Proof.Machine

/-! ### The block and the step (R14, R113, R119) -/

/-- Settles O18: every instruction's one effect is the word on the output port. -/
theorem everyInstructionEncodesAndOnlyTheWordChanges : Obligations.EveryInstructionEncodesAndOnlyTheWordChanges := by
  intro i s
  exact ⟨s.setWord (encode i), exec_eq_next i s, rfl, rfl, rfl, rfl, rfl, fun _ => rfl, rfl⟩

/-- A step with an instruction pending is its meaning in the state with it presented, and then the word collected. -/
theorem step_of_pending_exec {s : State} {i : Instr} {rest : List Instr} (h : s.pending = i :: rest) :
    ∃ t, exec i s.present = .next t ∧ step s = .next t.collect :=
  ⟨_, exec_eq_next i s.present, step_of_pending h⟩

/-- A table word that decodes is placed before what is pending (log entry 10). -/
theorem State.withFetchWord_pending {s : State} {nbits w : Nat} {i : Instr} (h : decodeTableWord nbits w = some i) :
    (s.withFetchWord nbits w).pending = i :: s.pending := by
  unfold State.withFetchWord; rw [h]

/-- Settles O32: a pending instruction, one on the ports, and a table word, which is then the one pending first. -/
theorem stepRunsTheInstruction : Obligations.StepRunsTheInstruction := by
  refine ⟨fun s i rest => step_of_pending_exec, fun s i hp hi => ?_, fun s w i hw => ?_⟩
  · rw [step_of_nil hp, evaluate_of_ofPorts hi, exec_eq_next]
  · have hpending := State.withFetchWord_pending (s := s) hw
    exact ⟨hpending, step_of_pending_exec hpending⟩

/-! ### The numbers of the Error lines (R115, R117) -/

theorem errorLines_cons_of_ne_error {l : AsmLine} (h : l ≠ .error) (n : Nat) (ls : List AsmLine) :
    errorLines n (l :: ls) = errorLines (n + 1) ls := by
  cases l with
  | error => exact absurd rfl h
  | instruction | blank | comment => rfl

/-- The numbers reported from n on are those of the Error lines, the first line being number n. -/
theorem mem_errorLines_iff {n m : Nat} {ls : List AsmLine} :
    m ∈ errorLines n ls ↔ ∃ k, ls[k]? = some .error ∧ m = n + k := by
  induction ls generalizing n with
  | nil => simp [errorLines]
  | cons l ls ih =>
    rw [← Nat.or_exists_add_one]
    by_cases hl : l = .error
    · simp [hl, errorLines, ih, Nat.add_assoc, Nat.add_comm 1]
    · simp [hl, errorLines_cons_of_ne_error hl, ih, Nat.add_assoc, Nat.add_comm 1]

theorem pairwise_lt_errorLines (n : Nat) (ls : List AsmLine) : (errorLines n ls).Pairwise (· < ·) := by
  induction ls generalizing n with
  | nil => exact .nil
  | cons l ls ih =>
    by_cases hl : l = .error
    · subst hl
      refine .cons (fun m hm => ?_) (ih (n + 1))
      obtain ⟨k, _, rfl⟩ := mem_errorLines_iff.1 hm
      omega
    · rw [errorLines_cons_of_ne_error hl]
      exact ih (n + 1)

/-- A program's reported numbers are the 0-based indices of the lines that parse as Errors. -/
theorem mem_errorLines_classify_iff (H : HostParams) (lines : List Text) (n : Nat) :
    n ∈ errorLines 0 (classify H lines) ↔ ∃ l, lines[n]? = some l ∧ parseLine H l = .error := by
  simp [mem_errorLines_iff, classify]

theorem errorLines_classify_ne_nil {H : HostParams} {lines : List Text} (h : ∃ l ∈ lines, parseLine H l = .error) :
    errorLines 0 (classify H lines) ≠ [] := by
  rw [Ne, errorLines_eq_nil_iff, not_not]
  exact List.mem_map.2 h

/-- Settles O45: some number is reported, so the host's result is the numbers; they are ascending and exact. -/
theorem anyErrorLineGatesTheProgram : Obligations.AnyErrorLineGatesTheProgram := by
  intro P H lines s h
  obtain ⟨n, ns, hns⟩ := List.exists_cons_of_ne_nil (errorLines_classify_ne_nil h)
  have hasm : assembleWith P H lines = .errors (errorLines 0 (classify H lines)) := by
    rw [hns]; exact assembleWith_of_errorLines P hns
  refine ⟨s.loadProgram_of_errorLines hns, _, hasm, pairwise_lt_errorLines 0 _, mem_errorLines_classify_iff H lines, ?_⟩
  rw [hasm]
  rfl

end Sys2Proof.Machine
end
